-- ==== Sys2Proof/Word.lean ====
section
/-! DEFINITION. The word types of the engine: the 64-bit word (00_scope.md R6), the 32-bit command word
(30_encoding.md R70), the 64 lane-words of a Lane-State (10_state.md R20) and the four lane-words of an S-box (41_sbox.md R121). -/

namespace Sys2Proof

/-- A word: 64 bits, bit 0 least significant (00_scope.md R6). -/
abbrev Word := BitVec 64

/-- A command word: 32 bits, bit 0 least significant (30_encoding.md R70). -/
abbrev Cmd := BitVec 32

/-- 64 lane-words in order, lane 0 first: the lane register file, the scratch buffer, or one round-key block
(10_state.md R20, R23, R25). -/
abbrev Lanes := Vector Word 64

/-- The word with all 64 bits set, the spec's `ONES` (41_sbox.md R123). -/
abbrev ones : Word := 0xFFFFFFFFFFFFFFFF

/-- Four lane-words: the inputs `x0 .. x3` or the outputs `y0 .. y3` of the S-box (41_sbox.md R121). -/
structure Quad where
  w0 : Word
  w1 : Word
  w2 : Word
  w3 : Word
  deriving DecidableEq, Repr

end Sys2Proof
end

