-- ==== Sys2Proof/Syntax.lean ====
section
/-! DEFINITION. The 17 commands (30_encoding.md R76), one constructor per row of the opcode map.
An operand is the 8-bit field taken as an unsigned number, used as it stands (30_encoding.md R75). -/

namespace Sys2Proof

/-- A command of the engine. The spec calls it a command; it is this hardware's instruction (00_scope.md, glossary). -/
inductive Instr where
  /-- `NOP`: do nothing (44_access_and_control.md R190). -/
  | nop
  /-- `RST`: soft reset (44_access_and_control.md R191). -/
  | rst
  /-- `WRS i`: write lane register `i` from `din` (44_access_and_control.md R192). -/
  | wrs (i : Nat)
  /-- `RDS i`: read lane register `i` (44_access_and_control.md R193). -/
  | rds (i : Nat)
  /-- `RDK r, i`: read lane `i` of round-key block `r` (44_access_and_control.md R194). -/
  | rdk (r i : Nat)
  /-- `SETR n`: set the round count (44_access_and_control.md R196). -/
  | setr (n : Nat)
  /-- `SETM m`: select the key strategy (44_access_and_control.md R197). -/
  | setm (m : Nat)
  /-- `RDC c`: read control register `c` (44_access_and_control.md R198). -/
  | rdc (c : Nat)
  /-- `MIR d, s`: mirror lane register `s` into lane register `d` (40_bit_transform.md R101). -/
  | mir (d src : Nat)
  /-- `TRN`: transpose the lane register file (40_bit_transform.md R104). -/
  | trn
  /-- `SBX k`: the S-box on group `k` (41_sbox.md R124). -/
  | sbx (k : Nat)
  /-- `SBL`: the S-box layer (41_sbox.md R125). -/
  | sbl
  /-- `PL`: the permutation layer (42_round_function.md R144). -/
  | pl
  /-- `AK r`: key mixing with block `r` (42_round_function.md R141). -/
  | ak (r : Nat)
  /-- `RND r`: one round with block `r` (42_round_function.md R147). -/
  | rnd (r : Nat)
  /-- `ENC`: the whole encryption (42_round_function.md R149). -/
  | enc
  /-- `KGEN`: generate round-key material (43_key_strategies.md R171). -/
  | kgen
  deriving DecidableEq, Repr

end Sys2Proof
end

