-- ==== Sys2Proof/WellFormed.lean ====
section
/-! DEFINITION. Which commands a command word can express: every operand is an 8-bit unsigned number (30_encoding.md R75).
The legal range of an operand (30_encoding.md R74) is not part of this: an operand out of its legal range still
decodes, and the command then faults. -/

namespace Sys2Proof

/-- The operand fits its 8-bit field (30_encoding.md R70, R75). -/
def fitsField (n : Nat) : Bool := decide (n < 256)

/-- Every operand fits its field (30_encoding.md R74, R75). -/
def wellFormed : Instr → Bool
  | .nop => true
  | .rst => true
  | .wrs i => fitsField i
  | .rds i => fitsField i
  | .rdk r i => fitsField r && fitsField i
  | .setr n => fitsField n
  | .setm m => fitsField m
  | .rdc c => fitsField c
  | .mir d src => fitsField d && fitsField src
  | .trn => true
  | .sbx k => fitsField k
  | .sbl => true
  | .pl => true
  | .ak r => fitsField r
  | .rnd r => fitsField r
  | .enc => true
  | .kgen => true

end Sys2Proof
end

