-- ==== Sys2Proof/Decode.lean ====
section
/-! DEFINITION. The decoder, total on every 32-bit word and rejecting by name, the encoder, and the opcode map as
match and mask rows (30_encoding.md R70 to R82). -/

namespace Sys2Proof

/-- Why a command word is illegal (30_encoding.md R77). Either way the unit raises `ILLEGAL_CMD`. -/
inductive IllegalReason where
  /-- The field `op` is not one of the 17 listed values. -/
  | unlistedOp
  /-- The field `op` is listed and a field its format reserves is not zero. -/
  | reservedField
  deriving DecidableEq, Repr

/-- `cmd[31:24]`, the operation (30_encoding.md R70). -/
def opField (w : Cmd) : Nat := (w.extractLsb' 24 8).toNat

/-- `cmd[23:16]`, the first operand or reserved (30_encoding.md R70). -/
def aField (w : Cmd) : Nat := (w.extractLsb' 16 8).toNat

/-- `cmd[15:8]`, the second operand or reserved (30_encoding.md R70). -/
def bField (w : Cmd) : Nat := (w.extractLsb' 8 8).toNat

/-- `cmd[7:0]`, always reserved (30_encoding.md R70). -/
def cField (w : Cmd) : Nat := (w.extractLsb' 0 8).toNat

/-- Format `Z`: `a`, `b` and `c` are reserved and must be 0 (30_encoding.md R71). -/
def formatZ (w : Cmd) (i : Instr) : Except IllegalReason Instr :=
  if aField w = 0 ∧ bField w = 0 ∧ cField w = 0 then .ok i else .error .reservedField

/-- Format `A`: `a` is the operand, `b` and `c` are reserved and must be 0 (30_encoding.md R72). -/
def formatA (w : Cmd) (mk : Nat → Instr) : Except IllegalReason Instr :=
  if bField w = 0 ∧ cField w = 0 then .ok (mk (aField w)) else .error .reservedField

/-- Format `AB`: `a` and `b` are the operands, `c` is reserved and must be 0 (30_encoding.md R73). -/
def formatAB (w : Cmd) (mk : Nat → Nat → Instr) : Except IllegalReason Instr :=
  if cField w = 0 then .ok (mk (aField w) (bField w)) else .error .reservedField

/-- The decoder: the opcode map by `op` (30_encoding.md R76), with every other word illegal (R77, R78). It uses nothing
but the word (R82). -/
def decode (w : Cmd) : Except IllegalReason Instr :=
  match opField w with
  | 0x00 => formatZ w .nop
  | 0x01 => formatZ w .rst
  | 0x10 => formatA w .wrs
  | 0x11 => formatA w .rds
  | 0x12 => formatAB w .rdk
  | 0x18 => formatA w .setr
  | 0x19 => formatA w .setm
  | 0x1A => formatA w .rdc
  | 0x20 => formatAB w .mir
  | 0x21 => formatZ w .trn
  | 0x30 => formatA w .sbx
  | 0x31 => formatZ w .sbl
  | 0x32 => formatZ w .pl
  | 0x33 => formatA w .ak
  | 0x34 => formatA w .rnd
  | 0x35 => formatZ w .enc
  | 0x40 => formatZ w .kgen
  | _ => .error .unlistedOp

/-- The command word with fields `op`, `a` and `b`, and `c = 0` (30_encoding.md R70 to R73). -/
def packCmd (op a b : Nat) : Cmd :=
  BitVec.ofNat 8 op ++ BitVec.ofNat 8 a ++ BitVec.ofNat 8 b ++ (0 : BitVec 8)

/-- The encoder: the word of a well-formed command (30_encoding.md R71 to R73, R76). -/
def encode : Instr → Cmd
  | .nop => packCmd 0x00 0 0
  | .rst => packCmd 0x01 0 0
  | .wrs i => packCmd 0x10 i 0
  | .rds i => packCmd 0x11 i 0
  | .rdk r i => packCmd 0x12 r i
  | .setr n => packCmd 0x18 n 0
  | .setm m => packCmd 0x19 m 0
  | .rdc c => packCmd 0x1A c 0
  | .mir d src => packCmd 0x20 d src
  | .trn => packCmd 0x21 0 0
  | .sbx k => packCmd 0x30 k 0
  | .sbl => packCmd 0x31 0 0
  | .pl => packCmd 0x32 0 0
  | .ak r => packCmd 0x33 r 0
  | .rnd r => packCmd 0x34 r 0
  | .enc => packCmd 0x35 0 0
  | .kgen => packCmd 0x40 0 0

/-- A row of the opcode map: a word is that command exactly when its bits under the mask are the match
(30_encoding.md R76). -/
structure OpcodeRow where
  mnemonic : String
  bits : Cmd
  mask : Cmd
  deriving DecidableEq, Repr

/-- The word matches the row (30_encoding.md R76). -/
def matchesRow (row : OpcodeRow) (w : Cmd) : Bool := decide (w &&& row.mask = row.bits)

/-- The row of the opcode map a command belongs to (30_encoding.md R76): its mnemonic, match and mask. -/
def rowOf : Instr → OpcodeRow
  | .nop => ⟨"NOP", 0x00000000, 0xFFFFFFFF⟩
  | .rst => ⟨"RST", 0x01000000, 0xFFFFFFFF⟩
  | .wrs _ => ⟨"WRS", 0x10000000, 0xFF00FFFF⟩
  | .rds _ => ⟨"RDS", 0x11000000, 0xFF00FFFF⟩
  | .rdk _ _ => ⟨"RDK", 0x12000000, 0xFF0000FF⟩
  | .setr _ => ⟨"SETR", 0x18000000, 0xFF00FFFF⟩
  | .setm _ => ⟨"SETM", 0x19000000, 0xFF00FFFF⟩
  | .rdc _ => ⟨"RDC", 0x1A000000, 0xFF00FFFF⟩
  | .mir _ _ => ⟨"MIR", 0x20000000, 0xFF0000FF⟩
  | .trn => ⟨"TRN", 0x21000000, 0xFFFFFFFF⟩
  | .sbx _ => ⟨"SBX", 0x30000000, 0xFF00FFFF⟩
  | .sbl => ⟨"SBL", 0x31000000, 0xFFFFFFFF⟩
  | .pl => ⟨"PL", 0x32000000, 0xFFFFFFFF⟩
  | .ak _ => ⟨"AK", 0x33000000, 0xFF00FFFF⟩
  | .rnd _ => ⟨"RND", 0x34000000, 0xFF00FFFF⟩
  | .enc => ⟨"ENC", 0x35000000, 0xFFFFFFFF⟩
  | .kgen => ⟨"KGEN", 0x40000000, 0xFFFFFFFF⟩

/-- The opcode map: the 17 rows (30_encoding.md R76). -/
def opcodeTable : List OpcodeRow :=
  [rowOf .nop, rowOf .rst, rowOf (.wrs 0), rowOf (.rds 0), rowOf (.rdk 0 0), rowOf (.setr 0), rowOf (.setm 0),
   rowOf (.rdc 0), rowOf (.mir 0 0), rowOf .trn, rowOf (.sbx 0), rowOf .sbl, rowOf .pl, rowOf (.ak 0), rowOf (.rnd 0),
   rowOf .enc, rowOf .kgen]

/-- The command of a decoding, or none where the word is illegal. -/
def decoded : Except IllegalReason Instr → Option Instr
  | .ok i => some i
  | .error _ => none

/-- The command word whose lowest `nbits` bits are those of `w` and whose other bits are 0. The word is one 32-bit value,
bit 0 least significant, and has no byte order (20_memory.md R54, 30_encoding.md R70). -/
def tableCmd (nbits w : Nat) : Cmd := BitVec.ofNat 32 (w % 2 ^ nbits)

/-- What the decoder reads from an opcode-table row's bits. -/
def decodeTableWord (nbits w : Nat) : Option Instr := decoded (decode (tableCmd nbits w))

end Sys2Proof
end

