-- ==== Sys2Proof/Config.lean ====
section
/-! DEFINITION. What an implementation fixes, and the free values. `LANES`, `STATE_BITS` and `GROUPS` are 64, 64 and 16
and are no parameters (00_scope.md R5): they stand as numerals in the definitions. -/

namespace Sys2Proof

/-- The default of the parameter `MAX_ROUNDS` (00_scope.md R5). The parameter itself is a field of the state that no
command writes, so that what is proved holds for each of its values `0 .. 255`; this default is only its value in
`State.reset`. DESIGN CHOICE (log 9), safe. -/
def Config.defaultMaxRounds : BitVec 8 := 31

/-- `Config.randomWord k n`: the `n`-th word random source `k` delivers when the list of words it was given has run out.
A FREE VALUE: it has no body, so no proof can rest on what a word is, nor on how the words of two sources are related
(00_scope.md R11, 91_not_in_source.md N14, 93_implementation_defined.md U2, U20). DESIGN CHOICE (log 5), safe. -/
opaque Config.randomWord : Nat → Nat → Word

end Sys2Proof
end

