-- ==== Sys2Proof/Machine/State.lean ====
section
/-! DEFINITION. The state of one unit as plain data, and the state after reset (10_state.md). -/

namespace Sys2Proof.Machine

/-- The key memory: (word index, word) pairs, the word `K[n]` at index `n` (10_state.md R25). The engine has no byte
addresses (20_memory.md R50, R54), so the smallest addressable unit, a 64-bit word, is the cell. Canonical form
(`Memory.wf`): indices strictly rising, and no listed word equal to 0, which is what an unlisted word reads as
(DESIGN CHOICE, log 8, unsafe: the spec gives the reset contents as unspecified and unreachable, R39). -/
abbrev Memory := List (Nat × Word)

/-- The content of `CR[1].KEYMODE`: only 0 or 1 is ever held (10_state.md R30). -/
inductive KeyMode where
  /-- `KEYMODE = 0`, Independent (43_key_strategies.md R172). -/
  | independent
  /-- `KEYMODE = 1`, Constant (43_key_strategies.md R173). -/
  | constant
  deriving DecidableEq, Repr

/-- The four faults the spec gives the unit (60_exceptions.md R220). Taking one is a next state of the model: the code is
latched in `STATUS.ERR` and answered to the host (60_exceptions.md R228). -/
inductive FaultCode where
  /-- Code 1: the word matches no row of the opcode map (60_exceptions.md R221). -/
  | illegalCmd
  /-- Code 2: a configuration value out of its legal range (60_exceptions.md R222). -/
  | badConfig
  /-- Code 3: a lane, group, key-block or control-register number out of range (60_exceptions.md R223). -/
  | badIndex
  /-- Code 4: key material used while `KVALID = 0` (60_exceptions.md R224). -/
  | keyInvalid
  deriving DecidableEq, Repr

/-- A command's response (00_scope.md R8). -/
inductive Response where
  /-- `OK`: completed, with no data. -/
  | ok
  /-- `DATA(v)`: completed, returning the word `v`. -/
  | data (v : Word)
  /-- `ERR(code)`: faulted or refused; no data (44_access_and_control.md R200). -/
  | err (code : FaultCode)
  deriving DecidableEq, Repr

/-- What the outside world presents to a unit, one thing at a time (00_scope.md R12, 70_reset_and_hazards.md R250). -/
inductive Input where
  /-- The host presents a command word with its data word (10_state.md R40). -/
  | command (cmd : Cmd) (din : Word)
  /-- The platform causes hard reset. The contents of `S`, `T` and `K` after it are unspecified (10_state.md R37 to R39),
  so they come with the event as a free input, `K` as its words from word 0 on. -/
  | hardReset (lanes scratch : Lanes) (keyWords : List Word)
  deriving DecidableEq, Repr

/-- The state of one unit (10_state.md R20 to R40) and its interface.

The registers and stores of the spec are `S` to `maxRounds`. `din` and `resp` are the data-in word and the response of
the command at hand (10_state.md R40). `pending`, `random`, `drawn` and `source` are inputs held as plain data: what is
presented next, the words the random source has ready, the model's own count of free words taken after those, and which
source it is. -/
structure State where
  /-- Lane registers `S[0..63]` (10_state.md R20). -/
  S : Lanes
  /-- Scratch buffer `T[0..63]` (10_state.md R23). -/
  T : Lanes
  /-- Key memory `K` (10_state.md R25). -/
  K : Memory
  /-- `CR[0].ROUNDS`, bits `[7:0]` (10_state.md R29). -/
  rounds : BitVec 8
  /-- `CR[1].KEYMODE`, bits `[1:0]` (10_state.md R30). -/
  keymode : KeyMode
  /-- `CR[2].KVALID`, bit 0 of `STATUS` (10_state.md R31). -/
  kvalid : Bool
  /-- `CR[2].ERR`, bits `[7:4]` of `STATUS`: none is 0 (10_state.md R31). -/
  err : Option FaultCode
  /-- `CR[3].MAX_ROUNDS`, bits `[7:0]` of the constant `CAP` (10_state.md R33): the parameter of 00_scope.md R5. -/
  maxRounds : BitVec 8
  /-- The data word that accompanies the command at hand (10_state.md R40). -/
  din : Word
  /-- The response to the latest command, none before the first (00_scope.md R8). -/
  resp : Option Response
  /-- What the host and the platform present next, first one first (00_scope.md R12). -/
  pending : List Input
  /-- The words the random source has ready, in order (00_scope.md R11, 10_state.md R32). -/
  random : List Word
  /-- How many free words (`Config.randomWord`) have been taken. The model's own field (log 5). -/
  drawn : Nat
  /-- Which random source is this unit's own (10_state.md R32): the first argument of `Config.randomWord`. The model's own
  field (log 5), which nothing but a draw reads. -/
  source : Nat
  deriving DecidableEq, Repr

/-- Why the model would stop with a fault. There is no such reason: the spec gives every command word an effect in every
state (30_encoding.md R78, 70_reset_and_hazards.md R262), and the unit's own faults are responses, latched in `STATUS.ERR`
(60_exceptions.md R228), that is next states. No one raises one; safe. -/
inductive Fault
  deriving DecidableEq, Repr

/-- Why the model would answer with a refusal. -/
inductive Refusal where
  /-- Raised by an arm of `exec` for a command that has no meaning yet; safe. Every command has its meaning, so no arm
  raises it. -/
  | notModelled (mnemonic : String)
  deriving DecidableEq, Repr

/-- The machine right after reset (10_state.md R36 to R39, 70_reset_and_hazards.md R250): `ROUNDS = 0`, `KEYMODE = 0`,
`KVALID = 0`, `ERR = 0`, waiting for its first command. The spec leaves `S`, `T` and `K` unspecified: here they are zero,
DESIGN CHOICE, unsafe (log 6, 7, 8); the hard-reset event leaves them free. -/
def State.reset : State where
  S := Vector.replicate 64 0
  T := Vector.replicate 64 0
  K := []
  rounds := 0
  keymode := .independent
  kvalid := false
  err := none
  maxRounds := Config.defaultMaxRounds
  din := 0
  resp := none
  pending := []
  random := []
  drawn := 0
  source := 0

end Sys2Proof.Machine
end

