-- ==== Sys2Proof/Machine/Bits.lean ====
section
/-! DEFINITION. Words by their bits and Lane-States by their lanes: reading and writing one lane register, building a
word or 64 lanes from a function of the index, `mirror` and `transpose` (40_bit_transform.md). -/

namespace Sys2Proof.Machine

/-- The number whose bit `i` is `f i`, over the bits below `n` (00_scope.md R6: `sum over j of w[j] * 2^j`). -/
def bitsBelow (f : Nat → Bool) : Nat → Nat
  | 0 => 0
  | n + 1 => bitsBelow f n + (if f n then 2 ^ n else 0)

/-- The word `w` with `w[i] = f i` for every `i` in `0..63` (00_scope.md R6). -/
def wordOf (f : Nat → Bool) : Word := BitVec.ofNat 64 (bitsBelow f 64)

/-- The words `f i, f (i + 1), ...`, `n` of them. -/
def tabulate (f : Nat → Word) : Nat → Nat → List Word
  | 0, _ => []
  | n + 1, i => f i :: tabulate f n (i + 1)

theorem tabulate_length (f : Nat → Word) (n i : Nat) : (tabulate f n i).length = n := by
  induction n generalizing i with
  | zero => rfl
  | succ n ih => simp [tabulate, ih]

/-- The 64 lanes with lane `i` equal to `f i`. -/
def lanesOf (f : Nat → Word) : Lanes := ⟨⟨tabulate f 64 0⟩, tabulate_length f 64 0⟩

/-- Lane `i` of a Lane-State, `0 <= i <= 63` (00_scope.md R7). Every caller has an index in range; beyond it the value is
0, and no command reads it. -/
def lane (L : Lanes) (i : Nat) : Word := if h : i < 64 then L[i] else 0

/-- `L` with lane `i` replaced by `v` (00_scope.md R7); a write to one lane changes no other (10_state.md R22). -/
def setLane (L : Lanes) (i : Nat) (v : Word) : Lanes := if h : i < 64 then L.set i v h else L

/-- All 64 lanes zero. -/
def zeroLanes : Lanes := lanesOf fun _ => 0

/-- `mirror(x)[i] = x[63 - i]` (40_bit_transform.md R100). -/
def mirror (x : Word) : Word := wordOf fun i => x.getLsbD (63 - i)

/-- `transpose(M)[j][i] = M[i][j]` (40_bit_transform.md R103). -/
def transpose (M : Lanes) : Lanes := lanesOf fun j => wordOf fun i => (lane M i).getLsbD j

end Sys2Proof.Machine
end

