-- ==== Sys2Proof/Machine/Ops.lean ====
section
/-! DEFINITION. The shared operations: the key memory, the random source, answering a command, taking a fault
(60_exceptions.md), the two resets, and taking the next input. -/

namespace Sys2Proof.Machine

/-! ## Key memory (10_state.md R25, 20_memory.md R52) -/

/-- The word at an index; an unlisted word reads 0 (log 8). -/
def memRead : Memory → Nat → Word
  | [], _ => 0
  | (k, v) :: rest, n => if k = n then v else memRead rest n

/-- The cells of consecutive words from index `n` on; a zero word is not listed. -/
def listWords (n : Nat) : List Word → Memory
  | [] => []
  | w :: ws => if w = 0 then listWords (n + 1) ws else (n, w) :: listWords (n + 1) ws

/-- Words `0, 1, ...` of the key memory replaced by `ws`, every other word as it was. It is the one write of the key
memory: `KGEN` always writes whole blocks from word 0 on (43_key_strategies.md R175). -/
def memFill (ws : List Word) (m : Memory) : Memory :=
  listWords 0 ws ++ m.filter fun c => decide (ws.length ≤ c.1)

/-- Indices strictly rising from `lo` on, and no listed word equal to 0. -/
def Memory.wfFrom (lo : Nat) : Memory → Bool
  | [] => true
  | (k, v) :: rest => decide (lo ≤ k) && decide (v ≠ 0) && Memory.wfFrom (k + 1) rest

/-- The canonical form of the key memory: indices strictly rising, and no listed word equal to what an unlisted word
reads as. -/
def Memory.wf (m : Memory) : Bool := Memory.wfFrom 0 m

/-- Every listed index is below `bound`. -/
def Memory.below (bound : Nat) (m : Memory) : Bool := m.all fun c => decide (c.1 < bound)

/-- How many words the key memory has: `64 * (MAX_ROUNDS + 1)` (10_state.md R25). -/
def keySize (s : State) : Nat := 64 * (s.maxRounds.toNat + 1)

/-- `KB(r, i) = K[64 * r + i]`: lane `i` of round-key block `r` (10_state.md R25). -/
def keyWord (m : Memory) (r i : Nat) : Word := memRead m (64 * r + i)

/-- Round-key block `r`, all 64 lanes (10_state.md R25). -/
def keyBlock (m : Memory) (r : Nat) : Lanes := lanesOf fun i => keyWord m r i

/-! ## The random source (00_scope.md R11) -/

/-- `Draw()`: the next word of the random source, consumed; it always succeeds. The words in `random` come first; when
they have run out the word is free: the next one of the unit's own source (`Config.randomWord`). DESIGN CHOICE (log 5):
how the words of different units' sources are related is open (91_not_in_source.md N14), and nothing relates them here. -/
def draw (s : State) : Word × State :=
  match s.random with
  | w :: ws => (w, { s with random := ws })
  | [] => (Config.randomWord s.source s.drawn, { s with drawn := s.drawn + 1 })

/-- `n` successive draws: the words in the order drawn, and the state after them. -/
def drawMany : Nat → State → List Word × State
  | 0, s => ([], s)
  | n + 1, s =>
    let first := draw s
    let others := drawMany n first.2
    (first.1 :: others.1, others.2)

/-- The word the `n`-th draw from here on returns, counting from 0. No command calls it: claims name a drawn word by it. -/
def nthDraw (s : State) (n : Nat) : Word :=
  if n < s.random.length then s.random.getD n 0 else Config.randomWord s.source (s.drawn + (n - s.random.length))

/-! ## Answering a command, and taking a fault -/

/-- The command's response (00_scope.md R8). -/
def respond (r : Response) (s : State) : State := { s with resp := some r }

/-- `raise F`: if `ERR = 0` then `ERR <- n`; the response is `ERR(ERR)`, the latched code; nothing else changes
(60_exceptions.md R228). -/
def raise (f : FaultCode) (s : State) : State :=
  let latched := s.err.getD f
  { s with err := some latched, resp := some (.err latched) }

/-- The order of checks every command but `RDC` and `RST` goes through (60_exceptions.md R227): the fault gate, which
refuses with the latched code and changes nothing (R230); then the fault of the operand and state checks, if there is
one; then the command's effect and its response. -/
def gated (check : Option FaultCode) (r : Response) (effect s : State) :
    Host.Outcome State Fault Refusal :=
  match s.err with
  | some latched => .next (respond (.err latched) s)
  | none =>
    match check with
    | some f => .next (raise f s)
    | none => .next (respond r effect)

/-- An illegal word: refused with the latched code while `ERR != 0`, else `ILLEGAL_CMD` (60_exceptions.md R221, R227). -/
def illegalCommand (s : State) : Host.Outcome State Fault Refusal :=
  gated (some .illegalCmd) .ok s s

/-! ## Reset: the only ways out of a fault (60_exceptions.md R231) -/

/-- The effect of `RST` (44_access_and_control.md R191): `S`, `T` and the control fields zero. `K` is kept: it is
unreachable while `KVALID = 0`. -/
def softReset (s : State) : State :=
  { s with S := zeroLanes, T := zeroLanes, rounds := 0, keymode := .independent, kvalid := false, err := none }

/-- Hard reset (70_reset_and_hazards.md R250, 10_state.md R36 to R39): the control fields zero; `S`, `T` and `K` hold
unspecified values, which come as arguments, the words of `K` beyond the key memory's size dropped; no command has been
answered yet. The parameter `MAX_ROUNDS` and the inputs not yet presented are not the event's. -/
def hardReset (lanes scratch : Lanes) (keyWords : List Word) (s : State) : State :=
  { s with
    S := lanes, T := scratch, K := memFill (keyWords.take (keySize s)) []
    rounds := 0, keymode := .independent, kvalid := false, err := none, resp := none }

/-! ## Taking the next input (00_scope.md R12) -/

/-- The state in which the presented command executes: the input taken from the list, its data word at the port. -/
def present (din : Word) (rest : List Input) (s : State) : State := { s with pending := rest, din := din }

/-- The state in which the hard-reset event acts: the input taken from the list. -/
def takeInput (rest : List Input) (s : State) : State := { s with pending := rest }

/-- The inputs with a command word in place of the next one. The data word at the port stays as it is. -/
def placeCommand (w : Cmd) (s : State) : State := { s with pending := .command w s.din :: s.pending.tail }

end Sys2Proof.Machine
end

