-- ==== Sys2Proof/Machine/Operands.lean ====
section
/-! DEFINITION. The operand range checks and the key-validity check, each the fault it raises or none
(60_exceptions.md R222 to R224), in the order of 60_exceptions.md R227. -/

namespace Sys2Proof.Machine

/-- The fault `f` when the condition holds. -/
def faultIf (c : Bool) (f : FaultCode) : Option FaultCode := if c then some f else none

/-- `BAD_INDEX` when a lane index is above 63 (20_memory.md R51, 60_exceptions.md R223). -/
def laneFault (i : Nat) : Option FaultCode := faultIf (decide (63 < i)) .badIndex

/-- `BAD_INDEX` when a group number is above 15 (60_exceptions.md R223). -/
def groupFault (k : Nat) : Option FaultCode := faultIf (decide (15 < k)) .badIndex

/-- `BAD_INDEX` when a key-block number is above `ROUNDS`, its value at the time of the command (60_exceptions.md R223). -/
def blockFault (r : Nat) (s : State) : Option FaultCode := faultIf (decide (s.rounds.toNat < r)) .badIndex

/-- `BAD_INDEX` when a control-register number is above 3 (20_memory.md R53, 60_exceptions.md R223). -/
def regFault (c : Nat) : Option FaultCode := faultIf (decide (3 < c)) .badIndex

/-- `BAD_CONFIG` when a round count is above `MAX_ROUNDS` (60_exceptions.md R222). -/
def roundsFault (n : Nat) (s : State) : Option FaultCode := faultIf (decide (s.maxRounds.toNat < n)) .badConfig

/-- `BAD_CONFIG` when a key mode is above 1 (60_exceptions.md R222). -/
def modeFault (m : Nat) : Option FaultCode := faultIf (decide (1 < m)) .badConfig

/-- `KEY_INVALID` when `KVALID = 0` (60_exceptions.md R224). -/
def keyFault (s : State) : Option FaultCode := faultIf (!s.kvalid) .keyInvalid

/-- The first fault of two checks in order (60_exceptions.md R227). -/
def firstFault (a b : Option FaultCode) : Option FaultCode :=
  match a with
  | some f => some f
  | none => b

/-- The key mode of the operand of `SETM`, which is 0 or 1 (10_state.md R30). -/
def modeOf (m : Nat) : KeyMode := if m = 0 then .independent else .constant

end Sys2Proof.Machine
end

