-- ==== Sys2Proof/Machine/Flags.lean ====
section
/-! DEFINITION. The control registers as `RDC` reads them (10_state.md R28 to R33): every bit not listed reads 0. `STATUS`
holds the unit's only flags (R31): no command sets a flag from a result. -/

namespace Sys2Proof.Machine

/-- The 4-bit code of a fault (60_exceptions.md R220). -/
def faultBits : FaultCode → BitVec 4
  | .illegalCmd => 1
  | .badConfig => 2
  | .badIndex => 3
  | .keyInvalid => 4

/-- The field `ERR`: 0 for no fault (10_state.md R31). -/
def errBits : Option FaultCode → BitVec 4
  | none => 0
  | some f => faultBits f

/-- The field `KEYMODE` (10_state.md R30). -/
def modeBits : KeyMode → BitVec 2
  | .independent => 0
  | .constant => 1

/-- `CR[0]`: `ROUNDS` in bits `[7:0]` (10_state.md R29). -/
def roundsReg (s : State) : Word := (0 : BitVec 56) ++ s.rounds

/-- `CR[1]`: `KEYMODE` in bits `[1:0]` (10_state.md R30). -/
def keymodeReg (s : State) : Word := (0 : BitVec 62) ++ modeBits s.keymode

/-- `CR[2]`, `STATUS`: `ERR` in bits `[7:4]`, `KVALID` in bit 0 (10_state.md R31). -/
def statusReg (s : State) : Word :=
  (0 : BitVec 56) ++ errBits s.err ++ (0 : BitVec 3) ++ BitVec.ofBool s.kvalid

/-- `CR[3]`, `CAP`: `MAX_ROUNDS` in bits `[7:0]`, 64 in bits `[15:8]` (10_state.md R33). -/
def capReg (s : State) : Word := (0 : BitVec 48) ++ (64 : BitVec 8) ++ s.maxRounds

/-- `CR[c]`, `0 <= c <= 3`, zero-extended to 64 bits (00_scope.md R7). `RDC` has checked the number; beyond 3 the value is
0, and no command reads it. -/
def controlReg (c : Nat) (s : State) : Word :=
  match c with
  | 0 => roundsReg s
  | 1 => keymodeReg s
  | 2 => statusReg s
  | 3 => capReg s
  | _ => 0

end Sys2Proof.Machine
end

