-- ==== Sys2Proof/Machine/Access.lean ====
section
/-! DEFINITION. Access and control commands: `NOP`, `RST`, `WRS`, `RDS`, `RDK`, `SETR`, `SETM`, `RDC`
(44_access_and_control.md). -/

namespace Sys2Proof.Machine

/-- `NOP` (44_access_and_control.md R190). -/
def execNop (s : State) : Host.Outcome State Fault Refusal := gated none .ok s s

/-- `RST` (44_access_and_control.md R191): it executes while `ERR != 0` too (60_exceptions.md R230). -/
def execRst (s : State) : Host.Outcome State Fault Refusal := .next (respond .ok (softReset s))

/-- `WRS i` (44_access_and_control.md R192). -/
def execWrs (i : Nat) (s : State) : Host.Outcome State Fault Refusal :=
  gated (laneFault i) .ok { s with S := setLane s.S i s.din } s

/-- `RDS i` (44_access_and_control.md R193). -/
def execRds (i : Nat) (s : State) : Host.Outcome State Fault Refusal :=
  gated (laneFault i) (.data (lane s.S i)) s s

/-- `RDK r, i` (44_access_and_control.md R194): both ranges before the key. -/
def execRdk (r i : Nat) (s : State) : Host.Outcome State Fault Refusal :=
  gated (firstFault (firstFault (blockFault r s) (laneFault i)) (keyFault s)) (.data (keyWord s.K r i)) s s

/-- `SETR n` (44_access_and_control.md R196): it clears `KVALID`, even when `n` is the old value. -/
def execSetr (n : Nat) (s : State) : Host.Outcome State Fault Refusal :=
  gated (roundsFault n s) .ok { s with rounds := BitVec.ofNat 8 n, kvalid := false } s

/-- `SETM m` (44_access_and_control.md R197). -/
def execSetm (m : Nat) (s : State) : Host.Outcome State Fault Refusal :=
  gated (modeFault m) .ok { s with keymode := modeOf m } s

/-- `RDC c` (44_access_and_control.md R198): it executes while `ERR != 0`, and a register number out of range is then
answered with the latched code, as `raise` does (60_exceptions.md R232). -/
def execRdc (c : Nat) (s : State) : Host.Outcome State Fault Refusal :=
  match regFault c with
  | some f => .next (raise f s)
  | none => .next (respond (.data (controlReg c s)) s)

end Sys2Proof.Machine
end

