-- ==== Sys2Proof/Machine/BitTransform.lean ====
section
/-! DEFINITION. The bit-transposition engine: `MIR`, `TRN` (40_bit_transform.md). -/

namespace Sys2Proof.Machine

/-- `MIR d, s` (40_bit_transform.md R101): the source is read before the destination is written. -/
def execMir (d src : Nat) (s : State) : Host.Outcome State Fault Refusal :=
  gated (firstFault (laneFault d) (laneFault src)) .ok { s with S := setLane s.S d (mirror (lane s.S src)) } s

/-- `TRN` (40_bit_transform.md R104): the transposed words go to `T`, all 64 of them, and from there to `S`. -/
def execTrn (s : State) : Host.Outcome State Fault Refusal :=
  gated none .ok { s with T := transpose s.S, S := transpose s.S } s

end Sys2Proof.Machine
end

