-- ==== Sys2Proof/Machine/KeyStrategy.lean ====
section
/-! DEFINITION. The key-strategy generator: `KGEN` (43_key_strategies.md). -/

namespace Sys2Proof.Machine

/-- Independent: `64 * (ROUNDS + 1)` draws, the `n`-th into `K[n]` (43_key_strategies.md R172, R175). -/
def generateIndependent (s : State) : State :=
  let drawnWords := drawMany (64 * (s.rounds.toNat + 1)) s
  { drawnWords.2 with K := memFill drawnWords.1 s.K }

/-- Constant: 64 draws, the `i`-th into lane `i` of every block `0 .. ROUNDS` (43_key_strategies.md R173, R175). The
scratch buffer is not used (90_conflicts.md C6). -/
def generateConstant (s : State) : State :=
  let drawnWords := drawMany 64 s
  { drawnWords.2 with K := memFill (List.replicate (s.rounds.toNat + 1) drawnWords.1).flatten s.K }

/-- The key material in the way `KEYMODE` selects (43_key_strategies.md R170), and `KVALID <- 1` (R171). -/
def generateKeys (s : State) : State :=
  match s.keymode with
  | .independent => { generateIndependent s with kvalid := true }
  | .constant => { generateConstant s with kvalid := true }

/-- `KGEN` (43_key_strategies.md R171): it has no fault of its own. -/
def execKgen (s : State) : Host.Outcome State Fault Refusal := gated none .ok (generateKeys s) s

end Sys2Proof.Machine
end

