-- ==== Sys2Proof/Machine/SboxArray.lean ====
section
/-! DEFINITION. The bit-sliced S-box array: the table, the lane-parallel function, `SBX`, `SBL` (41_sbox.md). -/

namespace Sys2Proof.Machine

/-- The reference truth table (41_sbox.md R120). -/
def sboxTable : List (BitVec 4) :=
  [0xC, 0x5, 0x6, 0xB, 0x9, 0x0, 0xA, 0xD, 0x3, 0xE, 0xF, 0x8, 0x4, 0x7, 0x1, 0x2]

/-- `SBOX[v]` (41_sbox.md R120). -/
def sboxEntry (v : BitVec 4) : BitVec 4 := sboxTable.getD v.toNat 0

/-- The 4-bit value at bit position `j` of four lane-words: `8 * x3[j] + 4 * x2[j] + 2 * x1[j] + x0[j]`
(41_sbox.md R121). -/
def quadValue (x : Quad) (j : Nat) : BitVec 4 :=
  BitVec.ofBool (x.w3.getLsbD j) ++ BitVec.ofBool (x.w2.getLsbD j) ++
    BitVec.ofBool (x.w1.getLsbD j) ++ BitVec.ofBool (x.w0.getLsbD j)

/-- The S-box by the table, bit position by bit position (41_sbox.md R121). No command calls it: it is what the function
the commands use must equal. -/
def sboxByTable (x : Quad) : Quad where
  w0 := wordOf fun j => (sboxEntry (quadValue x j)).getLsbD 0
  w1 := wordOf fun j => (sboxEntry (quadValue x j)).getLsbD 1
  w2 := wordOf fun j => (sboxEntry (quadValue x j)).getLsbD 2
  w3 := wordOf fun j => (sboxEntry (quadValue x j)).getLsbD 3

/-- The S-box over whole words, the algebraic normal form of the table (41_sbox.md R123). A model may define the S-box by
R121 or by R123 (41_sbox.md R127); DEDUCED (log 11), safe: that the two are equal is stated and proved of the model. -/
def sbox (x : Quad) : Quad where
  w0 := x.w0 ^^^ x.w2 ^^^ x.w3 ^^^ (x.w1 &&& x.w2)
  w1 := x.w1 ^^^ x.w3 ^^^ (x.w1 &&& x.w3) ^^^ (x.w2 &&& x.w3) ^^^ (x.w0 &&& x.w1 &&& x.w2) ^^^
    (x.w0 &&& x.w1 &&& x.w3) ^^^ (x.w0 &&& x.w2 &&& x.w3)
  w2 := ones ^^^ x.w2 ^^^ x.w3 ^^^ (x.w0 &&& x.w1) ^^^ (x.w0 &&& x.w3) ^^^ (x.w1 &&& x.w3) ^^^
    (x.w0 &&& x.w1 &&& x.w3) ^^^ (x.w0 &&& x.w2 &&& x.w3)
  w3 := ones ^^^ x.w0 ^^^ x.w1 ^^^ x.w3 ^^^ (x.w1 &&& x.w2) ^^^ (x.w0 &&& x.w1 &&& x.w2) ^^^
    (x.w0 &&& x.w1 &&& x.w3) ^^^ (x.w0 &&& x.w2 &&& x.w3)

/-- The four lanes of group `k`: `x_b` is lane `4k + b` (41_sbox.md R122). -/
def groupQuad (L : Lanes) (k : Nat) : Quad :=
  ⟨lane L (4 * k), lane L (4 * k + 1), lane L (4 * k + 2), lane L (4 * k + 3)⟩

/-- Word `b` of four lane-words, `b` in `0..3`. -/
def quadAt (y : Quad) (b : Nat) : Word :=
  match b with
  | 0 => y.w0
  | 1 => y.w1
  | 2 => y.w2
  | _ => y.w3

/-- The S-box on group `k`: output `y_b` goes back to lane `4k + b`, all four inputs being those before the command
(41_sbox.md R122, R124); the other 60 lanes keep their word. -/
def sboxGroup (k : Nat) (L : Lanes) : Lanes :=
  lanesOf fun i => if i / 4 = k then quadAt (sbox (groupQuad L k)) (i % 4) else lane L i

/-- The S-box on all 16 groups at once: the groups are disjoint (41_sbox.md R125). -/
def sboxAll (L : Lanes) : Lanes := lanesOf fun i => quadAt (sbox (groupQuad L (i / 4))) (i % 4)

/-- The S-box layer: groups `0 .. 15` (41_sbox.md R125). -/
def sboxLayer (s : State) : State := { s with S := sboxAll s.S }

/-- `SBX k` (41_sbox.md R124). -/
def execSbx (k : Nat) (s : State) : Host.Outcome State Fault Refusal :=
  gated (groupFault k) .ok { s with S := sboxGroup k s.S } s

/-- `SBL` (41_sbox.md R125). -/
def execSbl (s : State) : Host.Outcome State Fault Refusal := gated none .ok (sboxLayer s) s

end Sys2Proof.Machine
end

