-- ==== Sys2Proof/Machine/RoundFunction.lean ====
section
/-! DEFINITION. The round-function pipeline: `AK`, `PL`, `RND`, `ENC` (42_round_function.md). -/

namespace Sys2Proof.Machine

/-- Key mixing: `S'[i] = S[i] ^ KB(r, i)` (42_round_function.md R140). -/
def mixKey (r : Nat) (s : State) : State :=
  { s with S := lanesOf fun i => lane s.S i ^^^ keyWord s.K r i }

/-- The lanes moved by the permutation: lane `16b + k` of the result is lane `4k + b` of `L` (42_round_function.md R143). -/
def permLanes (L : Lanes) : Lanes := lanesOf fun m => lane L (4 * (m % 16) + m / 16)

/-- The permutation layer: the moved lanes go to `T`, all 64 of them, and from there to `S` (42_round_function.md R144). -/
def permLayer (s : State) : State := { s with T := permLanes s.S, S := permLanes s.S }

/-- Round `r`: key mixing with block `r`, the S-box layer, the permutation layer (42_round_function.md R146). -/
def roundWith (r : Nat) (s : State) : State := permLayer (sboxLayer (mixKey r s))

/-- Rounds `0 .. n - 1` in order (42_round_function.md R148). -/
def roundsUpTo : Nat → State → State
  | 0, s => s
  | n + 1, s => roundWith n (roundsUpTo n s)

/-- The whole encryption: rounds `0 .. ROUNDS - 1`, then key mixing with block `ROUNDS` (42_round_function.md R148). -/
def encrypt (s : State) : State := mixKey s.rounds.toNat (roundsUpTo s.rounds.toNat s)

/-- `AK r` (42_round_function.md R141). -/
def execAk (r : Nat) (s : State) : Host.Outcome State Fault Refusal :=
  gated (firstFault (blockFault r s) (keyFault s)) .ok (mixKey r s) s

/-- `PL` (42_round_function.md R144). -/
def execPl (s : State) : Host.Outcome State Fault Refusal := gated none .ok (permLayer s) s

/-- `RND r` (42_round_function.md R147): one check, before the first write. -/
def execRnd (r : Nat) (s : State) : Host.Outcome State Fault Refusal :=
  gated (firstFault (blockFault r s) (keyFault s)) .ok (roundWith r s) s

/-- `ENC` (42_round_function.md R149). -/
def execEnc (s : State) : Host.Outcome State Fault Refusal := gated (keyFault s) .ok (encrypt s) s

end Sys2Proof.Machine
end

