-- ==== Sys2Proof/Machine/Dispatch.lean ====
section
/-! DEFINITION. The one match over the commands: each arm is one call of that command's meaning. -/

namespace Sys2Proof.Machine

/-- What a command does in a state (60_exceptions.md R227, steps 2 to 6; step 1, decoding, is `decode`). -/
def exec (i : Instr) (s : State) : Host.Outcome State Fault Refusal :=
  match i with
  | .nop => Sys2Proof.Machine.execNop s
  | .rst => Sys2Proof.Machine.execRst s
  | .wrs n => Sys2Proof.Machine.execWrs n s
  | .rds n => Sys2Proof.Machine.execRds n s
  | .rdk r n => Sys2Proof.Machine.execRdk r n s
  | .setr n => Sys2Proof.Machine.execSetr n s
  | .setm m => Sys2Proof.Machine.execSetm m s
  | .rdc c => Sys2Proof.Machine.execRdc c s
  | .mir d src => Sys2Proof.Machine.execMir d src s
  | .trn => Sys2Proof.Machine.execTrn s
  | .sbx k => Sys2Proof.Machine.execSbx k s
  | .sbl => Sys2Proof.Machine.execSbl s
  | .pl => Sys2Proof.Machine.execPl s
  | .ak r => Sys2Proof.Machine.execAk r s
  | .rnd r => Sys2Proof.Machine.execRnd r s
  | .enc => Sys2Proof.Machine.execEnc s
  | .kgen => Sys2Proof.Machine.execKgen s

end Sys2Proof.Machine
end

