-- ==== Sys2Proof/Machine/Step.lean ====
section
/-! DEFINITION. One step: the next input is taken and performed whole (00_scope.md R12). -/

namespace Sys2Proof.Machine

/-- A presented command word: decoded, and executed or answered as illegal (60_exceptions.md R227). -/
def runCommand (w : Cmd) (s : State) : Host.Outcome State Fault Refusal :=
  match decode w with
  | .ok i => exec i s
  | .error _ => illegalCommand s

/-- One step. With nothing presented the unit is idle with all state held (60_exceptions.md R243). -/
def step (s : State) : Host.Outcome State Fault Refusal :=
  match s.pending with
  | [] => .next s
  | .command w d :: rest => runCommand w (present d rest s)
  | .hardReset lanes scratch keyWords :: rest => .next (hardReset lanes scratch keyWords (takeInput rest s))

/-- The state in which the given command word is what `step` takes next: it stands in place of the next input, with the
data word that is at the port (log 1). -/
def State.withFetchWord (s : State) (nbits w : Nat) : State := placeCommand (tableCmd nbits w) s

end Sys2Proof.Machine
end

