-- ==== Sys2Proof/Machine/RowView.lean ====
section
/-! DEFINITION. The row view (00_scope.md R13) and the ordinary cipher on one row word (42_round_function.md R146, R153):
what the lane-parallel pipeline must be for each of the 64 instances. No command calls this file. -/

namespace Sys2Proof.Machine

/-- `Row(j)[i] = S[i][j]`: the ordinary 64-bit word of instance `j` (00_scope.md R13). -/
def row (L : Lanes) (j : Nat) : Word := wordOf fun i => (lane L i).getLsbD j

/-- `KRow(r, j)[i] = KB(r, i)[j]`: the round key of round `r` for key instance `j` (00_scope.md R13). -/
def keyRow (m : Memory) (r j : Nat) : Word := wordOf fun i => (keyWord m r i).getLsbD j

/-- Nibble `k` of a row word, bits `4k+3 .. 4k` (41_sbox.md R122). -/
def nibble (x : Word) (k : Nat) : BitVec 4 := x.extractLsb' (4 * k) 4

/-- Every nibble `n` replaced by `SBOX[n]` (41_sbox.md R126, 42_round_function.md R146). -/
def subNibbles (x : Word) : Word := wordOf fun i => (sboxEntry (nibble x (i / 4))).getLsbD (i % 4)

/-- The permutation `P(4k + b) = 16b + k` on `0..63` (42_round_function.md R142). -/
def permIndex (i : Nat) : Nat := 16 * (i % 4) + i / 4

/-- Bit `i` moved to bit `P(i)`: bit `16b + k` of the result is bit `4k + b` of `x` (42_round_function.md R143). -/
def permBits (x : Word) : Word := wordOf fun m => x.getLsbD (4 * (m % 16) + m / 16)

/-- One round of the ordinary cipher (42_round_function.md R146). -/
def rowRound (k x : Word) : Word := permBits (subNibbles (x ^^^ k))

/-- Rounds `0 .. n - 1` of the ordinary cipher with round keys `key 0 .. key (n - 1)`. -/
def rowRounds (key : Nat → Word) : Nat → Word → Word
  | 0, x => x
  | n + 1, x => rowRound (key n) (rowRounds key n x)

/-- The ordinary cipher: `n` rounds, then key mixing with `key n` (42_round_function.md R153). -/
def rowEncrypt (key : Nat → Word) (n : Nat) (x : Word) : Word := rowRounds key n x ^^^ key n

end Sys2Proof.Machine
end

