-- ==== Sys2Proof/Machine/System.lean ====
section
/-! DEFINITION. Several units (60_exceptions.md R234 to R236): they share nothing, have no identifiers a command can see,
and a system is their product, started from reset and stepped under any schedule. -/

namespace Sys2Proof.Machine

/-- The units of a system, `NUNITS` of them (00_scope.md R5). Each has its own registers, stores, inputs and random source
(20_memory.md R63). That there is at least one unit, that they are alike and that no two have one source is the invariant
`SystemInv`. -/
abbrev System := List State

/-! ## Start from reset -/

/-- What a unit starts with that its reset does not fix: the unspecified contents of `S`, `T` and `K` (10_state.md R37 to
R39), what its host presents, and the words its random source has ready. -/
structure UnitStart where
  lanes : Lanes
  scratch : Lanes
  keyWords : List Word
  pending : List Input
  random : List Word
  deriving DecidableEq, Repr

/-- A unit right after hard reset (70_reset_and_hazards.md R250), with the parameter `MAX_ROUNDS` and its own random
source. -/
def unitAtReset (maxRounds : BitVec 8) (source : Nat) (u : UnitStart) : State :=
  hardReset u.lanes u.scratch u.keyWords
    { State.reset with maxRounds := maxRounds, source := source, pending := u.pending, random := u.random }

/-- Units right after hard reset, the first with source `source`, each with the source after that of the one before. -/
def unitsFrom (maxRounds : BitVec 8) : Nat → List UnitStart → System
  | _, [] => []
  | source, u :: us => unitAtReset maxRounds source u :: unitsFrom maxRounds (source + 1) us

/-- A system right after reset (60_exceptions.md R234): at least one unit, all with the same parameter and all after hard
reset, each with a random source of its own. -/
def systemAtReset (maxRounds : BitVec 8) (first : UnitStart) (others : List UnitStart) : System :=
  unitsFrom maxRounds 0 (first :: others)

/-! ## Steps -/

/-- The state a unit is in after one step of its own. No step stops (70_reset_and_hazards.md R262); a stopped unit would
keep its state. -/
def stepOf (s : State) : State :=
  match step s with
  | .next t => t
  | .fault _ => s
  | .refused _ => s

/-- `n` steps of one unit. -/
def stepsOf : Nat → State → State
  | 0, s => s
  | n + 1, s => stepsOf n (stepOf s)

/-- Unit `k` takes one step; a number that names no unit does nothing. -/
def stepUnit (k : Nat) (y : System) : System := y.modify k stepOf

/-- The units step in the order a schedule names them: one interleaving of their commands (60_exceptions.md R236). -/
def runSchedule : List Nat → System → System
  | [], y => y
  | k :: ks, y => runSchedule ks (stepUnit k y)

end Sys2Proof.Machine
end

