-- ==== Sys2Proof/Safety.lean ====
section
/-! DEFINITION. What claims are stated in: the invariant every step keeps, the safe run, what a step takes from the
inputs, the spec's tables as claims quote them, and which states agree in all but named fields. -/

namespace Sys2Proof.Machine

/-! ## Invariant and runs -/

/-- The invariant of the unit. `ROUNDS` holds a legal value (10_state.md R29); the key memory is in canonical form and
inside its size (10_state.md R25); and an `ERR(code)` response carries the latched code (60_exceptions.md R228). -/
structure UnitInv (s : State) : Prop where
  rounds_legal : s.rounds.toNat ≤ s.maxRounds.toNat
  key_canonical : Memory.wf s.K = true
  key_inside : Memory.below (keySize s) s.K = true
  resp_latched : ∀ c, s.resp = some (.err c) → s.err = some c

/-- The invariant of a system (60_exceptions.md R234, R235): at least one unit; all alike, with one value of the parameter
`MAX_ROUNDS`; each with a random source of its own (10_state.md R32); and each meeting the invariant of the unit. -/
structure SystemInv (y : System) : Prop where
  at_least_one : y ≠ []
  alike : ∀ s ∈ y, ∀ s' ∈ y, s.maxRounds = s'.maxRounds
  own_source : (y.map State.source).Nodup
  units : ∀ s ∈ y, UnitInv s

/-- The unit has faulted: it is stopped until a reset (60_exceptions.md R230). -/
def faulted (s : State) : Prop := s.err ≠ none

/-- `n` steps are safe: no state on the way is faulted (93_implementation_defined.md U19: a faulted state is never a final
state of a successful run). -/
def safeRun : Nat → State → Prop
  | 0, s => ¬ faulted s
  | n + 1, s => ¬ faulted s ∧ safeRun n (stepOf s)

/-- Commands executed one after another, each in the state the one before left (20_memory.md R60). -/
def execList : List Instr → State → Host.Outcome State Fault Refusal
  | [], s => .next s
  | i :: is, s =>
    match exec i s with
    | .next t => execList is t
    | .fault f => .fault f
    | .refused r => .refused r

/-! ## What a step takes -/

/-- The next input is a command word that decodes to `i`. -/
def takes (s : State) (i : Instr) : Prop :=
  ∃ w d rest, s.pending = .command w d :: rest ∧ decode w = .ok i

/-- The next input is a reset: `RST` or the hard-reset event. -/
def takesReset (s : State) : Prop :=
  takes s .rst ∨ ∃ lanes scratch ws rest, s.pending = .hardReset lanes scratch ws :: rest

/-- The input resets the unit: a well-formed `RST`, or the hard-reset event. -/
def resets : Input → Bool
  | .hardReset _ _ _ => true
  | .command w _ => decide (decoded (decode w) = some .rst)

/-- The input is one a faulted unit still serves: a well-formed `RDC` or `RST`, or the hard-reset event
(60_exceptions.md R230, R231). -/
def servedWhileFaulted : Input → Bool
  | .hardReset _ _ _ => true
  | .command w _ =>
    match decode w with
    | .ok (.rdc _) => true
    | .ok .rst => true
    | _ => false

/-! ## What a command answers -/

/-- The command raises the fault: the code is latched and answered, and nothing else changes (60_exceptions.md R228). -/
def Raises (f : FaultCode) (i : Instr) (s : State) : Prop :=
  exec i s = .next { s with err := some f, resp := some (.err f) }

/-- While `ERR != 0` the command is refused with the latched code, and nothing else changes (60_exceptions.md R230). -/
def Refuses (i : Instr) : Prop :=
  ∀ (s : State) (c : FaultCode), s.err = some c → exec i s = .next { s with resp := some (.err c) }

/-- The word is answered as illegal: `ILLEGAL_CMD` is raised when no fault is latched, and the latched code is answered
otherwise; nothing else changes (60_exceptions.md R221, R227). -/
def AnswersIllegal (w : Cmd) : Prop :=
  (∀ s : State, s.err = none →
    runCommand w s = .next { s with err := some .illegalCmd, resp := some (.err .illegalCmd) }) ∧
  (∀ (s : State) (c : FaultCode), s.err = some c → runCommand w s = .next { s with resp := some (.err c) })

/-- Format `Z` with this `op`: the word is the command, and a nonzero reserved field makes the word illegal
(30_encoding.md R71, R77). -/
def EncodingZ (op : Nat) (i : Instr) : Prop :=
  decode (BitVec.ofNat 32 (op <<< 24)) = .ok i ∧
  ∀ w, opField w = op → (aField w ≠ 0 ∨ bField w ≠ 0 ∨ cField w ≠ 0) → AnswersIllegal w

/-- Format `A` with this `op` (30_encoding.md R72, R77). -/
def EncodingA (op : Nat) (mk : Nat → Instr) : Prop :=
  (∀ a, a < 256 → decode (BitVec.ofNat 32 (op <<< 24 ||| a <<< 16)) = .ok (mk a)) ∧
  ∀ w, opField w = op → (bField w ≠ 0 ∨ cField w ≠ 0) → AnswersIllegal w

/-- Format `AB` with this `op` (30_encoding.md R73, R77). -/
def EncodingAB (op : Nat) (mk : Nat → Nat → Instr) : Prop :=
  (∀ a b, a < 256 → b < 256 → decode (BitVec.ofNat 32 (op <<< 24 ||| a <<< 16 ||| b <<< 8)) = .ok (mk a b)) ∧
  ∀ w, opField w = op → cField w ≠ 0 → AnswersIllegal w

/-! ## The spec's tables -/

/-- The operand check of each command: the conditions of `BAD_CONFIG` (60_exceptions.md R222) and of `BAD_INDEX`
(60_exceptions.md R223). -/
def operandCheck (i : Instr) (s : State) : Option FaultCode :=
  match i with
  | .wrs i => if i > 63 then some .badIndex else none
  | .rds i => if i > 63 then some .badIndex else none
  | .mir d src => if d > 63 ∨ src > 63 then some .badIndex else none
  | .sbx k => if k > 15 then some .badIndex else none
  | .ak r => if r > s.rounds.toNat then some .badIndex else none
  | .rnd r => if r > s.rounds.toNat then some .badIndex else none
  | .rdk r i => if r > s.rounds.toNat ∨ i > 63 then some .badIndex else none
  | .rdc c => if c > 3 then some .badIndex else none
  | .setr n => if n > s.maxRounds.toNat then some .badConfig else none
  | .setm m => if m > 1 then some .badConfig else none
  | .nop => none
  | .rst => none
  | .trn => none
  | .sbl => none
  | .pl => none
  | .enc => none
  | .kgen => none

/-- The command uses key material (60_exceptions.md R224). -/
def usesKey : Instr → Bool
  | .rdk _ _ => true
  | .ak _ => true
  | .rnd _ => true
  | .enc => true
  | .nop => false
  | .rst => false
  | .wrs _ => false
  | .rds _ => false
  | .setr _ => false
  | .setm _ => false
  | .rdc _ => false
  | .mir _ _ => false
  | .trn => false
  | .sbx _ => false
  | .sbl => false
  | .pl => false
  | .kgen => false

/-- The number of a fault code (60_exceptions.md R220). -/
def faultNumber : FaultCode → Nat
  | .illegalCmd => 1
  | .badConfig => 2
  | .badIndex => 3
  | .keyInvalid => 4

/-- The number in the field `ERR` (10_state.md R31). -/
def errNumber : Option FaultCode → Nat
  | none => 0
  | some f => faultNumber f

/-- The number in the field `KEYMODE` (10_state.md R30). -/
def modeNumber : KeyMode → Nat
  | .independent => 0
  | .constant => 1

/-- `CR[c]` as a number, field by field at its weight (10_state.md R29, R30, R31, R33). -/
def regNumber (c : Nat) (s : State) : Nat :=
  match c with
  | 0 => s.rounds.toNat
  | 1 => modeNumber s.keymode
  | 2 => s.kvalid.toNat + 16 * errNumber s.err
  | _ => s.maxRounds.toNat + 256 * 64

/-- The lane registers a command reads (10_state.md R21). -/
def readsLane (i : Instr) (j : Nat) : Bool :=
  match i with
  | .rds i => decide (j = i)
  | .mir _ src => decide (j = src)
  | .sbx k => decide (j / 4 = k)
  | .trn => true
  | .sbl => true
  | .pl => true
  | .ak _ => true
  | .rnd _ => true
  | .enc => true
  | .nop => false
  | .rst => false
  | .wrs _ => false
  | .rdk _ _ => false
  | .setr _ => false
  | .setm _ => false
  | .rdc _ => false
  | .kgen => false

/-- The lane registers a command writes (10_state.md R21). -/
def writesLane (i : Instr) (j : Nat) : Bool :=
  match i with
  | .rst => true
  | .wrs i => decide (j = i)
  | .mir d _ => decide (j = d)
  | .sbx k => decide (j / 4 = k)
  | .trn => true
  | .sbl => true
  | .pl => true
  | .ak _ => true
  | .rnd _ => true
  | .enc => true
  | .nop => false
  | .rds _ => false
  | .rdk _ _ => false
  | .setr _ => false
  | .setm _ => false
  | .rdc _ => false
  | .kgen => false

/-- The six commands of the cipher's data path (42_round_function.md R152). -/
def isPipeline : Instr → Bool
  | .sbx _ => true
  | .sbl => true
  | .pl => true
  | .ak _ => true
  | .rnd _ => true
  | .enc => true
  | .nop => false
  | .rst => false
  | .wrs _ => false
  | .rds _ => false
  | .rdk _ _ => false
  | .setr _ => false
  | .setm _ => false
  | .rdc _ => false
  | .mir _ _ => false
  | .trn => false
  | .kgen => false

/-- The round-key blocks a data-path command names, given the round count (42_round_function.md R141, R147, R148). -/
def usesBlock (i : Instr) (rounds r : Nat) : Bool :=
  match i with
  | .ak q => decide (r = q)
  | .rnd q => decide (r = q)
  | .enc => decide (r ≤ rounds)
  | .nop => false
  | .rst => false
  | .wrs _ => false
  | .rds _ => false
  | .rdk _ _ => false
  | .setr _ => false
  | .setm _ => false
  | .rdc _ => false
  | .mir _ _ => false
  | .trn => false
  | .sbx _ => false
  | .sbl => false
  | .pl => false
  | .kgen => false

/-! ## Comparing two states -/

/-- Lane-parallel: bit `j` of every word the command writes depends only on bit `j` of the words it reads, the control
fields it looks at being equal (00_scope.md R10). A word of `T` counts as written when it changed. -/
def LaneParallel (i : Instr) : Prop :=
  ∀ (s s' t t' : State) (j : Nat), j < 64 → s.err = none → s'.err = none → s.rounds = s'.rounds → s.kvalid = s'.kvalid →
    (∀ n, n < 64 → readsLane i n = true → (lane s.S n).getLsbD j = (lane s'.S n).getLsbD j) →
    (∀ r n, usesBlock i s.rounds.toNat r = true → n < 64 →
      (memRead s.K (64 * r + n)).getLsbD j = (memRead s'.K (64 * r + n)).getLsbD j) →
    exec i s = .next t → exec i s' = .next t' →
    (∀ n, n < 64 → writesLane i n = true → (lane t.S n).getLsbD j = (lane t'.S n).getLsbD j) ∧
    (t.T ≠ s.T → ∀ n, n < 64 → (lane t.T n).getLsbD j = (lane t'.T n).getLsbD j)

/-- The two states differ at most in key-memory words no command can reach: all of them while `KVALID = 0`, else those of
blocks above `ROUNDS` (10_state.md R27). -/
def SameButUnreachableKey (s s' : State) : Prop :=
  s' = { s with K := s'.K } ∧
  (s.kvalid = true → ∀ n, n < 64 * (s.rounds.toNat + 1) → memRead s'.K n = memRead s.K n)

end Sys2Proof.Machine
end

