-- ==== Sys2Proof/Certificates/Slice0/Obligations.lean ====
section
/-! DEFINITION. The statements for the provers, each from the numbered rules of the spec. -/

open Sys2Proof Sys2Proof.Machine

/-! ## Reset, steps and decoding -/

/-- Reset (10_state.md section 7, 70_reset_and_hazards.md section 1): after the hard-reset event the control fields are 0
and read so; `S`, `T` and `K` hold unspecified values: whatever contents one names, some event leaves them. Two clauses are
the model's choice: what was presented behind the event is what is presented next (`t.pending = rest`, log 21), and
`State.reset` has nothing presented (log 1). -/
def Obligations.HardResetClearsControlFields : Prop :=
  (∀ (s : State) (lanes scratch : Lanes) (ws : List Word) (rest : List Input),
    s.pending = .hardReset lanes scratch ws :: rest → ∃ t, step s = .next t ∧
      t.rounds = 0 ∧ t.keymode = .independent ∧ t.kvalid = false ∧ t.err = none ∧
      controlReg 0 t = 0 ∧ controlReg 1 t = 0 ∧ controlReg 2 t = 0 ∧ controlReg 3 t = controlReg 3 s ∧
      t.pending = rest) ∧
  (∀ (s : State) (lanes scratch : Lanes) (key : Nat → Word) (rest : List Input), ∃ ws t,
    step { s with pending := .hardReset lanes scratch ws :: rest } = .next t ∧
      t.S = lanes ∧ t.T = scratch ∧ ∀ n, n < keySize s → memRead t.K n = key n) ∧
  (State.reset.rounds = 0 ∧ State.reset.keymode = .independent ∧ State.reset.kvalid = false ∧ State.reset.err = none ∧
    controlReg 0 State.reset = 0 ∧ controlReg 1 State.reset = 0 ∧ controlReg 2 State.reset = 0 ∧ State.reset.pending = [])

/-- The invariant holds right after reset: in `State.reset` (its `S`, `T` and `K` are the model's, log 6, 7, 8), and after hard reset whatever `S`, `T` and `K` then hold and
whatever the unit's state was. -/
def Obligations.ResetMeetsInvariant : Prop :=
  UnitInv State.reset ∧ ∀ (s : State) (lanes scratch : Lanes) (ws : List Word), UnitInv (hardReset lanes scratch ws s)

/-- Every step keeps the invariant: `ROUNDS` stays legal (10_state.md R29), the key memory stays canonical and inside its
size (R25; the form is the model's, log 8), and an `ERR(code)` response carries the latched code (60_exceptions.md R228). -/
def Obligations.StepKeepsInvariant : Prop :=
  ∀ s t : State, UnitInv s → step s = .next t → UnitInv t

/-- A step always answers a next state, whatever the state and the input: the unit cannot hang and never stops
(70_reset_and_hazards.md section 4, 60_exceptions.md section 8). -/
def Obligations.EveryStepAnswersNext : Prop :=
  ∀ s : State, ∃ t, step s = .next t

/-- A step runs the decoded command: when the next input is a word that decodes to `i`, the step is `exec i` at the state
with that input taken and its data word at the port; and with no input presented the state is held (log 2). -/
def Obligations.StepRunsDecodedCommand : Prop :=
  (∀ (s : State) (w : Cmd) (d : Word) (rest : List Input) (i : Instr),
    s.pending = .command w d :: rest → decode w = .ok i → step s = exec i { s with pending := rest, din := d }) ∧
  (∀ s : State, s.pending = [] → step s = .next s)

/-- 60_exceptions.md R221: a word that matches no row of the opcode map raises `ILLEGAL_CMD`, or is refused with the
latched code, and changes nothing else. -/
def Obligations.UnmatchedWordIsIllegal : Prop :=
  ∀ w : Cmd, (∀ row ∈ opcodeTable, matchesRow row w = false) → AnswersIllegal w

/-- 30_encoding.md R76: a word is a command exactly when its bits under that row's mask are the row's match; there are 17
rows, and no word matches two of them. -/
def Obligations.OpcodeMapDecides : Prop :=
  (∀ (w : Cmd) (i : Instr), decode w = .ok i → rowOf i ∈ opcodeTable ∧ matchesRow (rowOf i) w = true) ∧
  (∀ (w : Cmd) (row : OpcodeRow), row ∈ opcodeTable → matchesRow row w = true →
    ∃ i, decode w = .ok i ∧ rowOf i = row) ∧
  (∀ (w : Cmd) (row row' : OpcodeRow), row ∈ opcodeTable → row' ∈ opcodeTable →
    matchesRow row w = true → matchesRow row' w = true → row = row') ∧
  (opcodeTable.map fun row => (row.mnemonic, row.bits, row.mask)) =
    [("NOP", 0x00000000, 0xFFFFFFFF), ("RST", 0x01000000, 0xFFFFFFFF), ("WRS", 0x10000000, 0xFF00FFFF),
     ("RDS", 0x11000000, 0xFF00FFFF), ("RDK", 0x12000000, 0xFF0000FF), ("SETR", 0x18000000, 0xFF00FFFF),
     ("SETM", 0x19000000, 0xFF00FFFF), ("RDC", 0x1A000000, 0xFF00FFFF), ("MIR", 0x20000000, 0xFF0000FF),
     ("TRN", 0x21000000, 0xFFFFFFFF), ("SBX", 0x30000000, 0xFF00FFFF), ("SBL", 0x31000000, 0xFFFFFFFF),
     ("PL", 0x32000000, 0xFFFFFFFF), ("AK", 0x33000000, 0xFF00FFFF), ("RND", 0x34000000, 0xFF00FFFF),
     ("ENC", 0x35000000, 0xFFFFFFFF), ("KGEN", 0x40000000, 0xFFFFFFFF)]

/-- Decoding the word of a well-formed command gives that command, with every operand at every value its field admits. -/
def Obligations.DecodeOfEncode : Prop :=
  ∀ i : Instr, wellFormed i = true → decode (encode i) = .ok i

/-- Every legal word is the encoding of the command it decodes to, and that command is well formed: no bit of a legal word
is ignored (30_encoding.md section 4). -/
def Obligations.EncodeOfDecode : Prop :=
  ∀ (w : Cmd) (i : Instr), decode w = .ok i → wellFormed i = true ∧ encode i = w

/-- Command words written out in the spec decode to the commands they stand for, one or more of each family. -/
def Obligations.SpecWordsDecode : Prop :=
  decode 0x00000000 = .ok .nop ∧ decode 0x10050000 = .ok (.wrs 5) ∧ decode 0x12023F00 = .ok (.rdk 2 63) ∧
  decode 0x181F0000 = .ok (.setr 31) ∧ decode 0x1A030000 = .ok (.rdc 3) ∧ decode 0x20060000 = .ok (.mir 6 0) ∧
  decode 0x21000000 = .ok .trn ∧ decode 0x30050000 = .ok (.sbx 5) ∧ decode 0x33030000 = .ok (.ak 3) ∧
  decode 0x34000000 = .ok (.rnd 0) ∧ decode 0x35000000 = .ok .enc ∧ decode 0x40000000 = .ok .kgen

/-! ## Access and control commands -/

/-- 44_access_and_control.md R190. -/
def Obligations.NopDoesNothing : Prop :=
  EncodingZ 0x00 .nop ∧ Refuses .nop ∧
  ∀ s : State, s.err = none → exec .nop s = .next { s with resp := some .ok }

/-- 44_access_and_control.md R191: `RST` executes whether or not a fault is latched; `K` is kept; its end state differs
from that of hard reset in `S`, `T`, `K` and the response only; it is the only command that clears `ERR`; an ill-formed
`RST` word is answered as illegal. -/
def Obligations.RstClearsUnit : Prop :=
  EncodingZ 0x01 .rst ∧
  (∀ s : State, ∃ t, exec .rst s = .next t ∧ (∀ i, i < 64 → lane t.S i = 0 ∧ lane t.T i = 0) ∧
    t = { s with
      S := t.S, T := t.T, rounds := 0, keymode := .independent, kvalid := false, err := none, resp := some .ok } ∧
    ∀ (lanes scratch : Lanes) (ws : List Word),
      hardReset lanes scratch ws s =
        { t with
          S := lanes, T := scratch, K := (hardReset lanes scratch ws s).K, resp := (hardReset lanes scratch ws s).resp }) ∧
  (∀ (i : Instr) (s t : State), exec i s = .next t → s.err ≠ none → t.err = none → i = .rst)

/-- 44_access_and_control.md R192. -/
def Obligations.WrsWritesOneLane : Prop :=
  EncodingA 0x10 .wrs ∧ (∀ i, Refuses (.wrs i)) ∧
  (∀ (s : State) (i : Nat), s.err = none → i ≤ 63 → ∃ t, exec (.wrs i) s = .next t ∧
    lane t.S i = s.din ∧ (∀ j, j ≠ i → lane t.S j = lane s.S j) ∧ t = { s with S := t.S, resp := some .ok }) ∧
  (∀ (s : State) (i : Nat), s.err = none → 63 < i → Raises .badIndex (.wrs i) s)

/-- 44_access_and_control.md R193. -/
def Obligations.RdsReadsOneLane : Prop :=
  EncodingA 0x11 .rds ∧ (∀ i, Refuses (.rds i)) ∧
  (∀ (s : State) (i : Nat), s.err = none → i ≤ 63 →
    exec (.rds i) s = .next { s with resp := some (.data (lane s.S i)) }) ∧
  (∀ (s : State) (i : Nat), s.err = none → 63 < i → Raises .badIndex (.rds i) s)

/-- 44_access_and_control.md R194: the range is checked before the key. -/
def Obligations.RdkReadsOneKeyWord : Prop :=
  EncodingAB 0x12 .rdk ∧ (∀ r i, Refuses (.rdk r i)) ∧
  (∀ (s : State) (r i : Nat), s.err = none → r ≤ s.rounds.toNat → i ≤ 63 → s.kvalid = true →
    exec (.rdk r i) s = .next { s with resp := some (.data (memRead s.K (64 * r + i))) }) ∧
  (∀ (s : State) (r i : Nat), s.err = none → (s.rounds.toNat < r ∨ 63 < i) → Raises .badIndex (.rdk r i) s) ∧
  (∀ (s : State) (r i : Nat), s.err = none → r ≤ s.rounds.toNat → i ≤ 63 → s.kvalid = false →
    Raises .keyInvalid (.rdk r i) s) ∧
  (∀ (s t : State) (r i : Nat), exec (.rdk r i) s = .next t → t.K = s.K)

/-- 44_access_and_control.md R196: `KVALID` is cleared even when the count is the old one. -/
def Obligations.SetrSetsRoundCount : Prop :=
  EncodingA 0x18 .setr ∧ (∀ n, Refuses (.setr n)) ∧
  (∀ (s : State) (n : Nat), s.err = none → n ≤ s.maxRounds.toNat → ∃ t, exec (.setr n) s = .next t ∧
    t.rounds.toNat = n ∧ t = { s with rounds := t.rounds, kvalid := false, resp := some .ok }) ∧
  (∀ (s : State) (n : Nat), s.err = none → s.maxRounds.toNat < n → Raises .badConfig (.setr n) s)

/-- 44_access_and_control.md R197: `KVALID` and the key material are unchanged. -/
def Obligations.SetmSelectsStrategy : Prop :=
  EncodingA 0x19 .setm ∧ (∀ m, Refuses (.setm m)) ∧
  (∀ (s : State) (m : Nat), s.err = none → m ≤ 1 → ∃ t, exec (.setm m) s = .next t ∧
    modeNumber t.keymode = m ∧ t = { s with keymode := t.keymode, resp := some .ok }) ∧
  (∀ (s : State) (m : Nat), s.err = none → 1 < m → Raises .badConfig (.setm m) s)

/-- 44_access_and_control.md R198: `RDC` executes whether or not a fault is latched, and returns the register as it is
before the command, every bit outside the fields 0; a number above 3 raises `BAD_INDEX`, or is answered with the latched
code, which is kept. -/
def Obligations.RdcReadsControlRegister : Prop :=
  EncodingA 0x1A .rdc ∧
  (∀ (s : State) (c : Nat), c ≤ 3 → ∃ v : Word, exec (.rdc c) s = .next { s with resp := some (.data v) } ∧
    v.toNat = regNumber c s) ∧
  (∀ (s : State) (c : Nat), s.err = none → 3 < c → Raises .badIndex (.rdc c) s) ∧
  (∀ (s : State) (c : Nat) (f : FaultCode), s.err = some f → 3 < c →
    exec (.rdc c) s = .next { s with resp := some (.err f) })

/-! ## Bit-transposition engine -/

/-- 40_bit_transform.md R100, R101: the destination takes the source with its bits reversed, read before the write; only
the destination changes. -/
def Obligations.MirMirrorsOneLane : Prop :=
  EncodingAB 0x20 .mir ∧ (∀ d src, Refuses (.mir d src)) ∧
  (∀ (s : State) (d src : Nat), s.err = none → d ≤ 63 → src ≤ 63 → ∃ t, exec (.mir d src) s = .next t ∧
    (∀ i, i < 64 → (lane t.S d).getLsbD i = (lane s.S src).getLsbD (63 - i)) ∧
    (∀ j, j ≠ d → lane t.S j = lane s.S j) ∧ t = { s with S := t.S, resp := some .ok }) ∧
  (∀ (s : State) (d src : Nat), s.err = none → (63 < d ∨ 63 < src) → Raises .badIndex (.mir d src) s)

/-- 40_bit_transform.md R103, R104: bit `i` of lane `j` afterwards is bit `j` of lane `i` before, and `T` equals the new
`S`. -/
def Obligations.TrnTransposes : Prop :=
  EncodingZ 0x21 .trn ∧ Refuses .trn ∧
  ∀ s : State, s.err = none → ∃ t, exec .trn s = .next t ∧
    (∀ i j, i < 64 → j < 64 → (lane t.S j).getLsbD i = (lane s.S i).getLsbD j) ∧ t.T = t.S ∧
    t = { s with S := t.S, T := t.T, resp := some .ok }

/-- 40_bit_transform.md R102. The last clause says there are 2^32 fixed points: one for each lower half. -/
def Obligations.MirrorLaws : Prop :=
  (∀ x : Word, mirror (mirror x) = x) ∧ mirror 0 = 0 ∧ mirror 0x0000000000000001 = 0x8000000000000000 ∧
  Function.Bijective mirror ∧
  (∀ x y : Word, mirror (x ^^^ y) = mirror x ^^^ mirror y ∧ mirror (x &&& y) = mirror x &&& mirror y ∧
    mirror (x ||| y) = mirror x ||| mirror y ∧ mirror (~~~x) = ~~~(mirror x)) ∧
  (∀ x : Word, mirror x = x ↔ ∀ i, i < 64 → x.getLsbD i = x.getLsbD (63 - i)) ∧
  (∀ lo : BitVec 32, ∃! x : Word, mirror x = x ∧ x.extractLsb' 0 32 = lo)

/-- 40_bit_transform.md R105: `transpose` is its own inverse, so `TRN; TRN` leaves `S` unchanged; it is a bijection,
commutes with the word-by-word operations, moves a single set bit `M[i][j]` to `N[j][i]`, and fixes the identity matrix. -/
def Obligations.TransposeLaws : Prop :=
  (∀ M : Lanes, transpose (transpose M) = M) ∧
  (∀ s : State, s.err = none → ∃ t, execList [.trn, .trn] s = .next t ∧ t.S = s.S) ∧
  Function.Bijective transpose ∧
  (∀ M N : Lanes,
    transpose (lanesOf fun i => lane M i ^^^ lane N i) = lanesOf (fun i => lane (transpose M) i ^^^ lane (transpose N) i) ∧
    transpose (lanesOf fun i => lane M i &&& lane N i) = lanesOf (fun i => lane (transpose M) i &&& lane (transpose N) i) ∧
    transpose (lanesOf fun i => lane M i ||| lane N i) = lanesOf (fun i => lane (transpose M) i ||| lane (transpose N) i) ∧
    transpose (lanesOf fun i => ~~~(lane M i)) = lanesOf (fun i => ~~~(lane (transpose M) i))) ∧
  (∀ i j, i < 64 → j < 64 →
    transpose (setLane zeroLanes i (BitVec.twoPow 64 j)) = setLane zeroLanes j (BitVec.twoPow 64 i)) ∧
  transpose (lanesOf fun i => BitVec.twoPow 64 i) = lanesOf fun i => BitVec.twoPow 64 i

/-- Row and lane representation (40_bit_transform.md section 3): `TRN` exchanges the row words with the lane registers, and
mirroring every row word before `TRN` reverses the lane order after it. -/
def Obligations.TrnExchangesRowsAndLanes : Prop :=
  (∀ s : State, s.err = none → ∃ t, exec .trn s = .next t ∧
    ∀ j, j < 64 → row t.S j = lane s.S j ∧ lane t.S j = row s.S j) ∧
  (∀ (M : Lanes) (j : Nat), j < 64 →
    lane (transpose (lanesOf fun i => mirror (lane M i))) j = lane (transpose M) (63 - j))

/-! ## S-box array -/

/-- 41_sbox.md R120, R121, R123: the function the commands compute with has the boolean form written out here, and equals,
on every four words, the table evaluated bit position by bit position; the table is the one written out here. -/
def Obligations.SboxEqualsTable : Prop :=
  (∀ x0 x1 x2 x3 : Word, sbox ⟨x0, x1, x2, x3⟩ =
    ⟨x0 ^^^ x2 ^^^ x3 ^^^ (x1 &&& x2),
     x1 ^^^ x3 ^^^ (x1 &&& x3) ^^^ (x2 &&& x3) ^^^ (x0 &&& x1 &&& x2) ^^^ (x0 &&& x1 &&& x3) ^^^ (x0 &&& x2 &&& x3),
     ones ^^^ x2 ^^^ x3 ^^^ (x0 &&& x1) ^^^ (x0 &&& x3) ^^^ (x1 &&& x3) ^^^ (x0 &&& x1 &&& x3) ^^^ (x0 &&& x2 &&& x3),
     ones ^^^ x0 ^^^ x1 ^^^ x3 ^^^ (x1 &&& x2) ^^^ (x0 &&& x1 &&& x2) ^^^ (x0 &&& x1 &&& x3) ^^^ (x0 &&& x2 &&& x3)⟩) ∧
  (∀ (x : Quad) (b j : Nat), b < 4 → j < 64 →
    (quadAt (sbox x) b).getLsbD j = (sboxEntry (quadValue x j)).getLsbD b) ∧
  (∀ x : Quad, sbox x = sboxByTable x) ∧
  (∀ (x : Quad) (j : Nat), j < 64 → (quadValue x j).toNat =
    8 * (x.w3.getLsbD j).toNat + 4 * (x.w2.getLsbD j).toNat + 2 * (x.w1.getLsbD j).toNat + (x.w0.getLsbD j).toNat) ∧
  (List.range 16).map (fun v => (sboxEntry (BitVec.ofNat 4 v)).toNat) =
    [0xC, 0x5, 0x6, 0xB, 0x9, 0x0, 0xA, 0xD, 0x3, 0xE, 0xF, 0x8, 0x4, 0x7, 0x1, 0x2]

/-- 41_sbox.md R124: the four lanes of the group take the S-box outputs of the four inputs before the command; the other
60 lanes are unchanged. -/
def Obligations.SbxSubstitutesOneGroup : Prop :=
  EncodingA 0x30 .sbx ∧ (∀ k, Refuses (.sbx k)) ∧
  (∀ (s : State) (k : Nat), s.err = none → k ≤ 15 → ∃ t, exec (.sbx k) s = .next t ∧
    (∀ b j, b < 4 → j < 64 →
      (lane t.S (4 * k + b)).getLsbD j = (sboxEntry (quadValue (groupQuad s.S k) j)).getLsbD b) ∧
    (∀ i, i / 4 ≠ k → lane t.S i = lane s.S i) ∧ t = { s with S := t.S, resp := some .ok }) ∧
  (∀ (s : State) (k : Nat), s.err = none → 15 < k → Raises .badIndex (.sbx k) s)

/-- 41_sbox.md R125: every group takes the S-box outputs of its own inputs. -/
def Obligations.SblSubstitutesAllGroups : Prop :=
  EncodingZ 0x31 .sbl ∧ Refuses .sbl ∧
  ∀ s : State, s.err = none → ∃ t, exec .sbl s = .next t ∧
    (∀ k b j, k ≤ 15 → b < 4 → j < 64 →
      (lane t.S (4 * k + b)).getLsbD j = (sboxEntry (quadValue (groupQuad s.S k) j)).getLsbD b) ∧
    t = { s with S := t.S, resp := some .ok }

/-- 41_sbox.md R126: `SBL` equals the sixteen `SBX` in any order; in row view it replaces every nibble by its table entry;
the table is a permutation with no fixed point, so the S-box and the layer are bijections. -/
def Obligations.SblIsSbxInAnyOrder : Prop :=
  (∀ (s : State) (order : List Nat), s.err = none → order.Perm (List.range 16) →
    execList (order.map .sbx) s = exec .sbl s) ∧
  (∀ s : State, s.err = none → ∃ t, exec .sbl s = .next t ∧
    ∀ j k, j < 64 → k < 16 → nibble (row t.S j) k = sboxEntry (nibble (row s.S j) k)) ∧
  (Function.Bijective sboxEntry ∧ ∀ v, sboxEntry v ≠ v) ∧
  Function.Bijective sbox ∧ Function.Bijective sboxAll

/-! ## Round-function pipeline -/

/-- 42_round_function.md R140, R141: every lane is exclusive-ored with its key word, every instance with its own key
instance; a second `AK` of the same block restores `S`; the range is checked before the key. -/
def Obligations.AkMixesOneBlock : Prop :=
  EncodingA 0x33 .ak ∧ (∀ r, Refuses (.ak r)) ∧
  (∀ (s : State) (r : Nat), s.err = none → r ≤ s.rounds.toNat → s.kvalid = true → ∃ t, exec (.ak r) s = .next t ∧
    (∀ i, i < 64 → lane t.S i = lane s.S i ^^^ memRead s.K (64 * r + i)) ∧
    (∀ j, j < 64 → row t.S j = row s.S j ^^^ keyRow s.K r j) ∧
    t = { s with S := t.S, resp := some .ok } ∧ ∃ u, exec (.ak r) t = .next u ∧ u.S = s.S) ∧
  (∀ (s : State) (r : Nat), s.err = none → s.rounds.toNat < r → Raises .badIndex (.ak r) s) ∧
  (∀ (s : State) (r : Nat), s.err = none → r ≤ s.rounds.toNat → s.kvalid = false → Raises .keyInvalid (.ak r) s)

/-- 42_round_function.md R143, R144: the lane at `4k + b` goes to `16b + k`, in row view bit `i` goes to bit `P(i)`, and
`T` equals the new `S`. -/
def Obligations.PlMovesLanes : Prop :=
  EncodingZ 0x32 .pl ∧ Refuses .pl ∧
  ∀ s : State, s.err = none → ∃ t, exec .pl s = .next t ∧
    (∀ k b, k < 16 → b < 4 → lane t.S (16 * b + k) = lane s.S (4 * k + b)) ∧
    (∀ i j, i < 64 → j < 64 → lane t.S (permIndex i) = lane s.S i ∧
      (row t.S j).getLsbD (permIndex i) = (row s.S j).getLsbD i) ∧
    t.T = t.S ∧ t = { s with S := t.S, T := t.T, resp := some .ok }

/-- 42_round_function.md R142, R145. -/
def Obligations.PermutationLaws : Prop :=
  (∀ k b, k < 16 → b < 4 → permIndex (4 * k + b) = 16 * b + k) ∧
  (∀ i, i ≤ 62 → permIndex i = 16 * i % 63) ∧ permIndex 63 = 63 ∧
  (∀ i, i < 64 → permIndex i < 64 ∧ permIndex (permIndex (permIndex i)) = i ∧ permIndex (63 - i) = 63 - permIndex i ∧
    (permIndex i = i ↔ i = 0 ∨ i = 21 ∨ i = 42 ∨ i = 63)) ∧
  (∀ i j, i < 64 → j < 64 → permIndex i = permIndex j → i = j) ∧
  (∀ s : State, s.err = none → ∃ t, execList [.pl, .pl, .pl] s = .next t ∧ t.S = s.S) ∧
  (∀ (f : Word → Word → Word) (L W : Lanes), permLanes (lanesOf fun i => f (lane L i) (lane W i)) =
    lanesOf fun i => f (lane (permLanes L) i) (lane (permLanes W) i))

/-- 42_round_function.md R146, R147: `RND r` is `AK r`, `SBL`, `PL` in that order, to the same next state; in row view it is
one round of the ordinary cipher with the instance's own round key. All checks come before the first write. -/
def Obligations.RndIsOneRound : Prop :=
  EncodingA 0x34 .rnd ∧ (∀ r, Refuses (.rnd r)) ∧
  (∀ (s : State) (r : Nat), s.err = none → r ≤ s.rounds.toNat → s.kvalid = true → ∃ t, exec (.rnd r) s = .next t ∧
    execList [.ak r, .sbl, .pl] s = .next t ∧
    (∀ j, j < 64 → row t.S j = permBits (subNibbles (row s.S j ^^^ keyRow s.K r j))) ∧
    t.T = t.S ∧ t = { s with S := t.S, T := t.T, resp := some .ok }) ∧
  (∀ (s : State) (r : Nat), s.err = none → s.rounds.toNat < r → Raises .badIndex (.rnd r) s) ∧
  (∀ (s : State) (r : Nat), s.err = none → r ≤ s.rounds.toNat → s.kvalid = false → Raises .keyInvalid (.rnd r) s)

/-- 42_round_function.md R148, R149: `ENC` is `RND 0; ...; RND (ROUNDS - 1); AK ROUNDS`, to the same next state: `ROUNDS`
rounds and `ROUNDS + 1` key mixings with blocks `0 .. ROUNDS`; nothing but `S` and `T` changes. -/
def Obligations.EncIsAllRounds : Prop :=
  EncodingZ 0x35 .enc ∧ Refuses .enc ∧
  (∀ s : State, s.err = none → s.kvalid = true → ∃ t, exec .enc s = .next t ∧
    execList ((List.range s.rounds.toNat).map .rnd ++ [.ak s.rounds.toNat]) s = .next t ∧
    t = { s with S := t.S, T := t.T, resp := some .ok }) ∧
  (∀ s : State, s.err = none → s.kvalid = false → Raises .keyInvalid .enc s)

/-- 42_round_function.md R151: with `ROUNDS = 0`, `ENC` is exactly `AK 0`, in every state, and mixes block 0 into `S` once:
no S-box, no permutation. -/
def Obligations.EncWithZeroRounds : Prop :=
  (∀ s : State, s.rounds = 0 → exec .enc s = exec (.ak 0) s) ∧
  (∀ s : State, s.rounds = 0 → s.err = none → s.kvalid = true → ∃ t, exec .enc s = .next t ∧
    (∀ i, i < 64 → lane t.S i = lane s.S i ^^^ memRead s.K i) ∧
    (∀ i j, i < 64 → j < 64 → (row t.S j).getLsbD i = ((row s.S j).getLsbD i ^^ (keyRow s.K 0 j).getLsbD i)))

/-- 42_round_function.md R153: for every one of the 64 instances, `ENC` is the ordinary cipher on that instance's row word
with that instance's round keys; so no instance's result depends on another's state or key. -/
def Obligations.EncRefinesOrdinaryCipher : Prop :=
  (∀ s : State, s.err = none → s.kvalid = true → ∃ t, exec .enc s = .next t ∧
    ∀ j, j < 64 → row t.S j = rowEncrypt (fun r => keyRow s.K r j) s.rounds.toNat (row s.S j)) ∧
  (∀ (s s' t t' : State) (j : Nat), j < 64 → s.err = none → s'.err = none → s.kvalid = true → s'.kvalid = true →
    s.rounds = s'.rounds → row s.S j = row s'.S j →
    (∀ r, r ≤ s.rounds.toNat → keyRow s.K r j = keyRow s'.K r j) →
    exec .enc s = .next t → exec .enc s' = .next t' → row t.S j = row t'.S j)

/-- 00_scope.md R10: the S-box, key-mixing, permutation, round and encrypt commands are lane-parallel; `TRN` and `MIR` are
not. -/
def Obligations.LaneParallelCommands : Prop :=
  (∀ i : Instr, isPipeline i = true → LaneParallel i) ∧ ¬ LaneParallel .trn ∧
  (∀ d src, d ≤ 63 → src ≤ 63 → ¬ LaneParallel (.mir d src))

/-- 42_round_function.md R152: the six data-path commands are functions of `S`, `ROUNDS` and the key blocks they name: two
units that agree on these (and on whether a key is present, with no fault latched) get the same `S`; and a completed one changes nothing
but `S`, `T` and the response, and draws nothing. -/
def Obligations.PipelineIsFunctionOfStateAndKey : Prop :=
  (∀ (i : Instr) (s s' t t' : State), isPipeline i = true → s.err = none → s'.err = none → s.kvalid = s'.kvalid →
    s.rounds = s'.rounds → s.S = s'.S →
    (∀ r n, usesBlock i s.rounds.toNat r = true → n < 64 → memRead s.K (64 * r + n) = memRead s'.K (64 * r + n)) →
    exec i s = .next t → exec i s' = .next t' → t.S = t'.S ∧ t.resp = t'.resp) ∧
  (∀ (i : Instr) (s t : State), isPipeline i = true → exec i s = .next t → t.resp = some .ok →
    t = { s with S := t.S, T := t.T, resp := some .ok })

/-! ## Key-strategy generator -/

/-- 43_key_strategies.md R170 to R175: Independent draws `64 * (ROUNDS + 1)` words, the `n`-th becoming `K[n]`; Constant
draws 64, the `i`-th becoming lane `i` of every block; every word of blocks `0 .. ROUNDS` is written, whole and unaltered,
and no other; `KVALID` is set; nothing else changes. Drawn words are free (`nthDraw`, log 5): the statement holds whatever
they are. -/
def Obligations.KgenFillsKeyBlocks : Prop :=
  EncodingZ 0x40 .kgen ∧ Refuses .kgen ∧
  (∀ s : State, s.err = none → s.keymode = .independent → ∃ t, exec .kgen s = .next t ∧
    (∀ n, n < 64 * (s.rounds.toNat + 1) → memRead t.K n = nthDraw s n) ∧
    (∀ n, 64 * (s.rounds.toNat + 1) ≤ n → memRead t.K n = memRead s.K n) ∧
    t = { s with
      K := t.K, kvalid := true, random := s.random.drop (64 * (s.rounds.toNat + 1))
      drawn := s.drawn + (64 * (s.rounds.toNat + 1) - s.random.length), resp := some .ok }) ∧
  (∀ s : State, s.err = none → s.keymode = .constant → ∃ t, exec .kgen s = .next t ∧
    (∀ r i, r ≤ s.rounds.toNat → i < 64 → memRead t.K (64 * r + i) = nthDraw s i) ∧
    (∀ n, 64 * (s.rounds.toNat + 1) ≤ n → memRead t.K n = memRead s.K n) ∧
    t = { s with
      K := t.K, kvalid := true, random := s.random.drop 64
      drawn := s.drawn + (64 - s.random.length), resp := some .ok })

/-- 10_state.md R26: no command but `KGEN` changes a key word, and no command but `AK`, `RND`, `ENC` and `RDK` has an
effect or a response that depends on one. -/
def Obligations.OnlyKgenWritesKey : Prop :=
  (∀ (i : Instr) (s t : State), i ≠ .kgen → exec i s = .next t → t.K = s.K) ∧
  (∀ (i : Instr) (s t : State) (m : Memory), usesKey i = false → exec i s = .next t →
    ∃ t', exec i { s with K := m } = .next t' ∧ t' = { t with K := t'.K } ∧
      (i = .kgen → t.resp = some .ok → ∀ n, n < 64 * (s.rounds.toNat + 1) → memRead t'.K n = memRead t.K n))

/-- 70_reset_and_hazards.md R258: any successful `SETR`, even to the current value, clears `KVALID`; `ENC`, `AK`, `RND` or
`RDK` right after it raises `KEY_INVALID`, and after any further commands but `KGEN` it still does not complete. -/
def Obligations.SetrInvalidatesKey : Prop :=
  ∀ (s t : State) (n : Nat), exec (.setr n) s = .next t → t.resp = some .ok →
    t.kvalid = false ∧ Raises .keyInvalid .enc t ∧
    (∀ r i, r ≤ n → i ≤ 63 → Raises .keyInvalid (.ak r) t ∧ Raises .keyInvalid (.rnd r) t ∧ Raises .keyInvalid (.rdk r i) t) ∧
    ∀ (cs : List Instr) (u : State) (i : Instr), (∀ x ∈ cs, x ≠ .kgen) → execList cs t = .next u → usesKey i = true →
      ∃ v c, exec i u = .next v ∧ v.resp = some (.err c)

/-! ## Faults -/

/-- 60_exceptions.md R222, R223, R227: the gate first, then the illegal word, then the operand range, then the key; the
first that applies decides; and when none applies the command completes with `OK` or `DATA`. -/
def Obligations.OrderOfChecks : Prop :=
  (∀ (w : Cmd) (e : IllegalReason), decode w = .error e → AnswersIllegal w) ∧
  (∀ (w : Cmd) (i : Instr) (s : State), decode w = .ok i → runCommand w s = exec i s) ∧
  (∀ i : Instr, i ≠ .rst → (∀ c, i ≠ .rdc c) → Refuses i) ∧
  (∀ (i : Instr) (s : State) (f : FaultCode), s.err = none → operandCheck i s = some f → Raises f i s) ∧
  (∀ (i : Instr) (s : State), s.err = none → operandCheck i s = none → usesKey i = true → s.kvalid = false →
    Raises .keyInvalid i s) ∧
  (∀ (i : Instr) (s : State), s.err = none → operandCheck i s = none → (usesKey i = true → s.kvalid = true) →
    ∃ t, exec i s = .next t ∧ t.err = none ∧ (t.resp = some .ok ∨ ∃ v, t.resp = some (.data v)))

/-- 60_exceptions.md R230: while `ERR != 0` the unit is stopped: however many words but well-formed `RDC` and `RST` are
presented, each is answered with the latched code, and nothing changes: no register, no key word, no draw, not `ERR`. -/
def Obligations.FaultedUnitIsStopped : Prop :=
  ∀ (n : Nat) (s : State) (c : FaultCode), s.err = some c →
    (∀ x ∈ s.pending.take n, servedWhileFaulted x = false) →
    stepsOf n s = { s with
      pending := s.pending.drop n, din := (stepsOf n s).din, resp := (stepsOf n s).resp } ∧
    (0 < n → s.pending ≠ [] → (stepsOf n s).resp = some (.err c))

/-- 60_exceptions.md R231, R232: the first fault's code stays in `ERR` until `RST` or hard reset; nothing else clears or
replaces it. -/
def Obligations.FirstFaultStaysLatched : Prop :=
  ∀ (s t : State) (c : FaultCode), s.err = some c → step s = .next t → t.err = some c ∨ (t.err = none ∧ takesReset s)

/-- A failure is never followed by results passed off as good (60_exceptions.md sections 4 and 5): a run with no reset in
it that ends without a fault had none at any step. -/
def Obligations.FailureIsNeverHidden : Prop :=
  ∀ (n : Nat) (s : State), (∀ x ∈ s.pending.take n, resets x = false) → ¬ faulted (stepsOf n s) → safeRun n s

/-! ## Whole-machine rules -/

/-- 10_state.md R33: `CAP` is a constant that no step changes, with `MAX_ROUNDS` in bits 7..0, 64 in bits 15..8 and 0
above; at the default parameter it reads 0x401F. -/
def Obligations.CapIsConstant : Prop :=
  (∀ s t : State, step s = .next t → controlReg 3 t = controlReg 3 s) ∧
  (∀ s : State, (controlReg 3 s).extractLsb' 0 8 = s.maxRounds ∧ (controlReg 3 s).extractLsb' 8 8 = 64 ∧
    (controlReg 3 s).extractLsb' 16 48 = 0) ∧
  (∀ s : State, s.maxRounds = 31 → controlReg 3 s = 0x000000000000401F)

/-- Who writes the control fields (10_state.md section 4): `ROUNDS` only `SETR` and the resets, `KEYMODE` only `SETM` and
the resets, `KVALID` set only by `KGEN` and cleared only by `SETR` and the resets. -/
def Obligations.ControlFieldWriters : Prop :=
  ∀ s t : State, step s = .next t →
    (t.rounds ≠ s.rounds → takesReset s ∨ ∃ n, takes s (.setr n)) ∧
    (t.keymode ≠ s.keymode → takesReset s ∨ ∃ m, takes s (.setm m)) ∧
    (s.kvalid = false → t.kvalid = true → takes s .kgen) ∧
    (s.kvalid = true → t.kvalid = false → takesReset s ∨ ∃ n, takes s (.setr n))

/-- 10_state.md R21: a command writes no lane register but those of the table, and neither its effect on them nor anything
else it does depends on a lane register the table does not say it reads. -/
def Obligations.LaneRegisterTable : Prop :=
  (∀ (i : Instr) (s t : State), exec i s = .next t → ∀ j, j < 64 → writesLane i j = false → lane t.S j = lane s.S j) ∧
  (∀ (i : Instr) (s t t' : State) (L : Lanes), (∀ j, j < 64 → readsLane i j = true → lane L j = lane s.S j) →
    exec i s = .next t → exec i { s with S := L } = .next t' →
    t' = { t with S := t'.S } ∧
    (t.resp = some .ok → ∀ j, j < 64 → writesLane i j = true → lane t'.S j = lane t.S j))

/-- 44_access_and_control.md R200: `din` is ignored by every command but `WRS`; only `RDS`, `RDK` and `RDC` answer with
data; a refused or faulting command answers with a code, and every command that leaves a fault latched is one, but for an
`RDC` of a register that exists. -/
def Obligations.DataWordsOfCommands : Prop :=
  (∀ (i : Instr) (s t : State) (d : Word), (∀ n, i ≠ .wrs n) → exec i s = .next t →
    exec i { s with din := d } = .next { t with din := d }) ∧
  (∀ (i : Instr) (s t : State) (v : Word), exec i s = .next t → t.resp = some (.data v) →
    (∃ n, i = .rds n) ∨ (∃ r n, i = .rdk r n) ∨ ∃ c, i = .rdc c) ∧
  (∀ (i : Instr) (s t : State), exec i s = .next t → t.err ≠ none →
    (∃ c, t.resp = some (.err c)) ∨ ∃ c, c ≤ 3 ∧ i = .rdc c)

/-- 10_state.md R24: no result depends on what `T` held: over any run, two units that differ in `T` alone differ in `T`
alone; and a command that changes `T` leaves in it a content that does not depend on the earlier one. -/
def Obligations.ScratchIsNeverObserved : Prop :=
  (∀ (n : Nat) (s : State) (scratch : Lanes), ∃ scratch', stepsOf n { s with T := scratch } = { stepsOf n s with T := scratch' }) ∧
  (∀ (i : Instr) (s t t' : State) (scratch : Lanes), exec i s = .next t → t.T ≠ s.T →
    exec i { s with T := scratch } = .next t' → t'.T = t.T)

/-- 10_state.md R27: words of blocks above `ROUNDS`, and all of `K` while `KVALID = 0`, hold no value a command can
observe: over any run, two units that differ in such words alone differ in such words alone. -/
def Obligations.UnreachableKeyIsNeverObserved : Prop :=
  ∀ (n : Nat) (s s' : State), SameButUnreachableKey s s' → SameButUnreachableKey (stepsOf n s) (stepsOf n s')

/-- 70_reset_and_hazards.md R251: every state after `RST` is, but for the response, a state after hard reset, the one with
`S` and `T` all zero. -/
def Obligations.RstIsOneHardReset : Prop :=
  ∀ s : State, UnitInv s → ∃ ws : List Word,
    exec .rst s = .next { hardReset zeroLanes zeroLanes ws s with resp := some .ok }

/-- 60_exceptions.md R236: units share nothing, so every interleaving gives each unit the same end state: the one it has
after as many steps of its own. -/
def Obligations.UnitsAreIndependent : Prop :=
  (∀ (schedule : List Nat) (units : System) (k : Nat),
    (runSchedule schedule units)[k]? = units[k]?.map (stepsOf (schedule.count k))) ∧
  (∀ (schedule schedule' : List Nat) (units : System), schedule.Perm schedule' →
    runSchedule schedule units = runSchedule schedule' units)

/-- 60_exceptions.md section 7: a system starts with at least one unit, one for each start given; all have the same parameter
and the control fields hard reset leaves, and the `S`, `T` and `K` of their own start (words of `K` not given are 0, the
model's choice, log 10); and the system invariant holds. That each unit has a source of its own is the invariant's (the form
of the source is the model's, log 5 and 15). -/
def Obligations.SystemStartsFromReset : Prop :=
  ∀ (maxRounds : BitVec 8) (first : UnitStart) (others : List UnitStart),
    SystemInv (systemAtReset maxRounds first others) ∧
    (systemAtReset maxRounds first others).length = others.length + 1 ∧
    ∀ (k : Nat) (u : UnitStart), (first :: others)[k]? = some u → ∃ s, (systemAtReset maxRounds first others)[k]? = some s ∧
      s.rounds = 0 ∧ s.keymode = .independent ∧ s.kvalid = false ∧ s.err = none ∧ s.maxRounds = maxRounds ∧
      s.S = u.lanes ∧ s.T = u.scratch ∧ (∀ n, n < keySize s → memRead s.K n = u.keyWords.getD n 0) ∧
      s.pending = u.pending ∧ s.random = u.random

/-- 60_exceptions.md section 7: whichever unit steps, and whatever it is presented, the system stays one of at least one
unit, all alike, each with a random source of its own (the form of the source is the model's, log 5 and 15), and each
meeting the unit's invariant. -/
def Obligations.StepKeepsSystemInvariant : Prop :=
  ∀ (k : Nat) (y : System), SystemInv y → SystemInv (stepUnit k y)
end

