-- ==== Sys2Proof/Laws/Bits.lean ====
section
/-! SUPPORT. The small laws of words by bits and Lane-States by lanes: what each of them reads as. -/

namespace Sys2Proof.Machine

/-! ## Words by bits -/

theorem bitsBelow_lt (f : Nat → Bool) (n : Nat) : bitsBelow f n < 2 ^ n := by
  induction n with
  | zero => simp [bitsBelow]
  | succ n ih => simp only [bitsBelow, pow_succ]; split <;> omega

theorem testBit_bitsBelow (f : Nat → Bool) (n i : Nat) :
    (bitsBelow f n).testBit i = (decide (i < n) && f i) := by
  induction n with
  | zero => simp [bitsBelow]
  | succ n ih =>
    have step : bitsBelow f (n + 1) = 2 ^ n * (f n).toNat + bitsBelow f n := by
      cases h : f n <;> simp [bitsBelow, h, Nat.add_comm]
    rw [step, Nat.testBit_two_pow_mul_add _ (bitsBelow_lt f n), ih]
    rcases Nat.lt_trichotomy i n with h | rfl | h
    · simp [h, Nat.lt_succ_of_lt h]
    · cases f i <;> simp
    · have hi : ¬ i < n := by omega
      have hi' : ¬ i < n + 1 := by omega
      have hb : Nat.testBit 1 (i - n) = false := by
        rw [show i - n = (i - n - 1) + 1 by omega, Nat.testBit_succ]; simp
      cases f n <;> simp [hi, hi', hb]

@[simp] theorem getLsbD_wordOf (f : Nat → Bool) (i : Nat) :
    (wordOf f).getLsbD i = (decide (i < 64) && f i) := by
  simp [wordOf, BitVec.getLsbD_ofNat, testBit_bitsBelow]

@[simp] theorem getElem_wordOf (f : Nat → Bool) (i : Nat) (h : i < 64) : (wordOf f)[i] = f i := by
  rw [← BitVec.getLsbD_eq_getElem, getLsbD_wordOf]; simp [h]

/-- Two words with the same 64 bits are equal. -/
theorem word_ext {x y : Word} (h : ∀ i, i < 64 → x.getLsbD i = y.getLsbD i) : x = y :=
  BitVec.eq_of_getLsbD_eq h

theorem wordOf_congr {f g : Nat → Bool} (h : ∀ i, i < 64 → f i = g i) : wordOf f = wordOf g :=
  word_ext fun i hi => by simp [hi, h i hi]

theorem getLsbD_mirror (x : Word) {i : Nat} (h : i < 64) : (mirror x).getLsbD i = x.getLsbD (63 - i) := by
  simp [mirror, h]

theorem getLsbD_ones {j : Nat} (h : j < 64) : BitVec.getLsbD ones j = true := by
  have : ∀ j : Fin 64, BitVec.getLsbD ones j = true := by decide
  exact this ⟨j, h⟩

/-- The number of two bit strings joined. -/
theorem toNat_append_mul {n m : Nat} (a : BitVec n) (b : BitVec m) : (a ++ b).toNat = a.toNat * 2 ^ m + b.toNat := by
  rw [BitVec.toNat_append, ← Nat.shiftLeft_add_eq_or_of_lt b.isLt, Nat.shiftLeft_eq]

/-! ## Lane-States by lanes -/

theorem getElem_tabulate (f : Nat → Word) (n i j : Nat) (h : j < (tabulate f n i).length) :
    (tabulate f n i)[j] = f (i + j) := by
  induction n generalizing i j with
  | zero => simp [tabulate] at h
  | succ n ih =>
    cases j with
    | zero => rfl
    | succ j => simp only [tabulate, List.getElem_cons_succ, ih]; congr 1; omega

@[simp] theorem lane_lanesOf (f : Nat → Word) (i : Nat) :
    lane (lanesOf f) i = if i < 64 then f i else 0 := by
  unfold lane lanesOf
  split <;> simp [getElem_tabulate]

theorem lane_setLane (L : Lanes) (i : Nat) (v : Word) (j : Nat) :
    lane (setLane L i v) j = if j = i ∧ i < 64 then v else lane L j := by
  unfold setLane
  by_cases hi : i < 64
  · by_cases hj : j < 64
    · by_cases hji : j = i
      · subst hji; simp [lane, hi]
      · simp [lane, hi, hj, hji, Ne.symm hji]
    · simp [lane, hi, hj, show j ≠ i by omega]
  · simp [hi]

/-- Two Lane-States with the same 64 lanes are equal. -/
theorem lanes_ext {L M : Lanes} (h : ∀ i, i < 64 → lane L i = lane M i) : L = M := by
  ext i hi : 1
  simpa [lane, hi] using h i hi

theorem lanesOf_congr {f g : Nat → Word} (h : ∀ i, i < 64 → f i = g i) : lanesOf f = lanesOf g :=
  lanes_ext fun i hi => by simp [hi, h i hi]

theorem lanesOf_lane (L : Lanes) : lanesOf (lane L) = L :=
  lanes_ext fun i hi => by simp [hi]

theorem lane_out (L : Lanes) {i : Nat} (h : ¬ i < 64) : lane L i = 0 := by simp [lane, h]

@[simp] theorem lane_zeroLanes (i : Nat) : lane zeroLanes i = 0 := by simp [zeroLanes]

theorem lane_transpose (M : Lanes) {j : Nat} (h : j < 64) :
    lane (transpose M) j = row M j := by simp [transpose, row, h]

theorem getLsbD_row (L : Lanes) (j : Nat) {i : Nat} (h : i < 64) : (row L j).getLsbD i = (lane L i).getLsbD j := by
  simp [row, h]

/-! ## The S-box array and the permutation network -/

/-- The bits of the value at a bit position are the bits of the four words there. -/
theorem getLsbD_quadValue (x : Quad) (j : Nat) {b : Nat} (hb : b < 4) :
    (quadValue x j).getLsbD b = (quadAt x b).getLsbD j := by
  have bits : ∀ a3 a2 a1 a0 : Bool,
      (BitVec.ofBool a3 ++ BitVec.ofBool a2 ++ BitVec.ofBool a1 ++ BitVec.ofBool a0).getLsbD 0 = a0 ∧
      (BitVec.ofBool a3 ++ BitVec.ofBool a2 ++ BitVec.ofBool a1 ++ BitVec.ofBool a0).getLsbD 1 = a1 ∧
      (BitVec.ofBool a3 ++ BitVec.ofBool a2 ++ BitVec.ofBool a1 ++ BitVec.ofBool a0).getLsbD 2 = a2 ∧
      (BitVec.ofBool a3 ++ BitVec.ofBool a2 ++ BitVec.ofBool a1 ++ BitVec.ofBool a0).getLsbD 3 = a3 := by decide
  have h := bits (x.w3.getLsbD j) (x.w2.getLsbD j) (x.w1.getLsbD j) (x.w0.getLsbD j)
  match b, hb with
  | 0, _ => exact h.1
  | 1, _ => exact h.2.1
  | 2, _ => exact h.2.2.1
  | 3, _ => exact h.2.2.2

/-- Word `b` of a group is lane `4k + b`. -/
theorem quadAt_groupQuad (L : Lanes) (k : Nat) {b : Nat} (hb : b < 4) : quadAt (groupQuad L k) b = lane L (4 * k + b) := by
  match b, hb with
  | 0, _ => rfl
  | 1, _ => rfl
  | 2, _ => rfl
  | 3, _ => rfl

/-- What the S-box on one group leaves in a lane: the group's lanes take its outputs, the others keep their word. -/
theorem lane_sboxGroup (k : Nat) (L : Lanes) {i : Nat} (h : i < 64) :
    lane (sboxGroup k L) i = if i / 4 = k then quadAt (sbox (groupQuad L k)) (i % 4) else lane L i := by
  simp [sboxGroup, h]

/-- What the S-box layer leaves in a lane: the output of its own group's S-box. -/
theorem lane_sboxAll (L : Lanes) {i : Nat} (h : i < 64) :
    lane (sboxAll L) i = quadAt (sbox (groupQuad L (i / 4))) (i % 4) := by simp [sboxAll, h]

theorem lane_permLanes (L : Lanes) {m : Nat} (h : m < 64) :
    lane (permLanes L) m = lane L (4 * (m % 16) + m / 16) := by simp [permLanes, h]

theorem lane_mixKey (r : Nat) (s : State) {i : Nat} (h : i < 64) :
    lane (mixKey r s).S i = lane s.S i ^^^ keyWord s.K r i := by simp [mixKey, h]

end Sys2Proof.Machine
end

