-- ==== Sys2Proof/Laws/Decode.lean ====
section
/-! SUPPORT. The fields of a packed command word, and a word from its fields. -/

namespace Sys2Proof

theorem append_extract_3 (a b c d : BitVec 8) : (a ++ b ++ c ++ d).extractLsb' 24 8 = a := by
  ext i hi
  simp only [BitVec.getElem_extractLsb', BitVec.getLsbD_append, show ¬ 24 + i < 8 by omega,
    show ¬ 24 + i - 8 < 8 by omega, show ¬ 24 + i - 8 - 8 < 8 by omega, if_false]
  rw [show 24 + i - 8 - 8 - 8 = i by omega, BitVec.getLsbD_eq_getElem hi]

theorem append_extract_2 (a b c d : BitVec 8) : (a ++ b ++ c ++ d).extractLsb' 16 8 = b := by
  ext i hi
  simp only [BitVec.getElem_extractLsb', BitVec.getLsbD_append, show ¬ 16 + i < 8 by omega,
    show ¬ 16 + i - 8 < 8 by omega, show 16 + i - 8 - 8 < 8 by omega, if_false, if_true]
  rw [show 16 + i - 8 - 8 = i by omega, BitVec.getLsbD_eq_getElem hi]

theorem append_extract_1 (a b c d : BitVec 8) : (a ++ b ++ c ++ d).extractLsb' 8 8 = c := by
  ext i hi
  simp only [BitVec.getElem_extractLsb', BitVec.getLsbD_append, show ¬ 8 + i < 8 by omega,
    show 8 + i - 8 < 8 by omega, if_false, if_true]
  rw [show 8 + i - 8 = i by omega, BitVec.getLsbD_eq_getElem hi]

theorem append_extract_0 (a b c d : BitVec 8) : (a ++ b ++ c ++ d).extractLsb' 0 8 = d := by
  ext i hi
  simp only [BitVec.getElem_extractLsb', BitVec.getLsbD_append, show 0 + i < 8 by omega, if_true]
  rw [show 0 + i = i by omega, BitVec.getLsbD_eq_getElem hi]

theorem extract_append (w : BitVec (8 + 8 + 8 + 8)) :
    w.extractLsb' 24 8 ++ w.extractLsb' 16 8 ++ w.extractLsb' 8 8 ++ w.extractLsb' 0 8 = w := by
  ext i hi
  simp only [BitVec.getElem_append, BitVec.getElem_extractLsb']
  rw [← BitVec.getLsbD_eq_getElem hi]
  split_ifs <;> congr 1 <;> omega

@[simp] theorem opField_packCmd (op a b : Nat) : opField (packCmd op a b) = op % 256 := by
  rw [opField, packCmd, append_extract_3]; simp

@[simp] theorem aField_packCmd (op a b : Nat) : aField (packCmd op a b) = a % 256 := by
  rw [aField, packCmd, append_extract_2]; simp

@[simp] theorem bField_packCmd (op a b : Nat) : bField (packCmd op a b) = b % 256 := by
  rw [bField, packCmd, append_extract_1]; simp

@[simp] theorem cField_packCmd (op a b : Nat) : cField (packCmd op a b) = 0 := by
  rw [cField, packCmd, append_extract_0]; simp

/-- A word whose field `c` is 0 is the packing of its other fields. -/
theorem packCmd_fields (w : Cmd) (h : cField w = 0) : packCmd (opField w) (aField w) (bField w) = w := by
  have h0 : w.extractLsb' 0 8 = 0 := BitVec.eq_of_toNat_eq (by simpa [cField] using h)
  simp only [packCmd, opField, aField, bField, BitVec.ofNat_toNat, BitVec.setWidth_eq, ← h0]
  exact extract_append w

theorem aField_lt (w : Cmd) : aField w < 256 := (w.extractLsb' 16 8).isLt

theorem bField_lt (w : Cmd) : bField w < 256 := (w.extractLsb' 8 8).isLt

/-- Two words with the same four fields are equal. -/
theorem cmd_ext {v w : Cmd} (hop : opField v = opField w) (ha : aField v = aField w) (hb : bField v = bField w)
    (hc : cField v = cField w) : v = w := by
  have h3 : v.extractLsb' 24 8 = w.extractLsb' 24 8 := BitVec.eq_of_toNat_eq hop
  have h2 : v.extractLsb' 16 8 = w.extractLsb' 16 8 := BitVec.eq_of_toNat_eq ha
  have h1 : v.extractLsb' 8 8 = w.extractLsb' 8 8 := BitVec.eq_of_toNat_eq hb
  have h0 : v.extractLsb' 0 8 = w.extractLsb' 0 8 := BitVec.eq_of_toNat_eq hc
  rw [← extract_append v, ← extract_append w, h3, h2, h1, h0]

end Sys2Proof
end

