-- ==== Sys2Proof/Laws/Memory.lean ====
section
/-! SUPPORT. The laws of the key memory: a read after a write, and that every operation keeps the canonical form. -/

namespace Sys2Proof.Machine

/-! ## Reading -/

theorem memRead_append (a b : Memory) (n : Nat) :
    memRead (a ++ b) n = if a.any (fun c => c.1 == n) then memRead a n else memRead b n := by
  induction a with
  | nil => simp
  | cons c rest ih =>
    obtain ⟨k, v⟩ := c
    by_cases h : k = n <;> simp [memRead, h, ih]

theorem memRead_of_not_any (m : Memory) (n : Nat) (h : m.any (fun c => c.1 == n) = false) : memRead m n = 0 := by
  induction m with
  | nil => rfl
  | cons c rest ih =>
    obtain ⟨k, v⟩ := c
    simp only [List.any_cons, Bool.or_eq_false_iff] at h
    simp only [memRead]
    rw [if_neg (by simpa using h.1), ih h.2]

theorem memRead_listWords (ws : List Word) (lo n : Nat) :
    memRead (listWords lo ws) n = if lo ≤ n then ws.getD (n - lo) 0 else 0 := by
  induction ws generalizing lo with
  | nil => simp [listWords, memRead]
  | cons w ws ih =>
    have tail : memRead (listWords (lo + 1) ws) n = if lo + 1 ≤ n then ws.getD (n - (lo + 1)) 0 else 0 := ih _
    rcases Nat.lt_trichotomy n lo with h | rfl | h
    · simp only [listWords]
      split <;> simp [memRead, tail, show ¬ lo + 1 ≤ n by omega, show ¬ lo ≤ n by omega, show lo ≠ n by omega]
    · simp only [listWords]
      split <;> simp_all [memRead]
    · have hs : n - lo = (n - (lo + 1)) + 1 := by omega
      simp only [listWords]
      split <;> simp [memRead, tail, show lo + 1 ≤ n by omega, show lo ≤ n by omega, show lo ≠ n by omega, hs]

theorem memRead_filter (ws : List Word) (m : Memory) (n : Nat) :
    memRead (m.filter fun c => decide (ws.length ≤ c.1)) n = if ws.length ≤ n then memRead m n else 0 := by
  induction m with
  | nil => simp [memRead]
  | cons c rest ih =>
    obtain ⟨k, v⟩ := c
    by_cases hk : ws.length ≤ k
    · by_cases h : k = n
      · subst h; simp [memRead, hk]
      · simp [memRead, hk, h, ih]
    · by_cases h : k = n
      · subst h; simp [hk, ih]
      · simp [memRead, hk, h, ih]

/-- A read after the write of words `0 ..`: a word written reads as written, every other word as before. -/
theorem memRead_memFill (ws : List Word) (m : Memory) (n : Nat) :
    memRead (memFill ws m) n = if n < ws.length then ws.getD n 0 else memRead m n := by
  have hl := memRead_listWords ws 0 n
  have hf := memRead_filter ws m n
  simp only [Nat.zero_le, if_true, Nat.sub_zero] at hl
  rw [memFill, memRead_append]
  by_cases hn : n < ws.length
  · rw [if_pos hn]
    split
    · exact hl
    · rename_i hany
      rw [hf, if_neg (by omega), ← hl]
      exact (memRead_of_not_any _ _ (Bool.eq_false_iff.2 hany)).symm
  · rw [if_neg hn]
    split
    · rename_i hany
      exfalso
      suffices h : ∀ lo, ∀ c ∈ listWords lo ws, c.1 < lo + ws.length by
        obtain ⟨c, hc, he⟩ := List.any_eq_true.1 hany
        have := h 0 c hc
        simp at he
        omega
      clear hany hl hf hn
      induction ws with
      | nil => simp [listWords]
      | cons w ws ih =>
        intro lo c hc
        simp only [listWords] at hc
        split at hc
        · have := ih (lo + 1) c hc; simp; omega
        · rcases List.mem_cons.1 hc with rfl | hc
          · simp
          · have := ih (lo + 1) c hc; simp; omega
    · rw [hf, if_pos (by omega)]

/-! ## The canonical form -/

theorem wfFrom_mono {m : Memory} {lo lo' : Nat} (h : lo ≤ lo') (hm : Memory.wfFrom lo' m = true) :
    Memory.wfFrom lo m = true := by
  cases m with
  | nil => rfl
  | cons c rest =>
    obtain ⟨k, v⟩ := c
    simp only [Memory.wfFrom, Bool.and_eq_true, decide_eq_true_eq] at hm ⊢
    exact ⟨⟨by omega, hm.1.2⟩, hm.2⟩

theorem wfFrom_filter {m : Memory} {lo n : Nat} (hm : Memory.wfFrom lo m = true) :
    Memory.wfFrom (max lo n) (m.filter fun c => decide (n ≤ c.1)) = true := by
  induction m generalizing lo with
  | nil => rfl
  | cons c rest ih =>
    obtain ⟨k, v⟩ := c
    simp only [Memory.wfFrom, Bool.and_eq_true, decide_eq_true_eq] at hm
    by_cases hk : n ≤ k
    · have tail := wfFrom_mono (lo := k + 1) (by omega) (ih hm.2)
      simp only [List.filter, hk, decide_true, Memory.wfFrom, Bool.and_eq_true, decide_eq_true_eq]
      exact ⟨⟨by omega, hm.1.2⟩, tail⟩
    · simp only [List.filter, hk, decide_false]
      exact wfFrom_mono (by omega) (ih hm.2)

theorem wfFrom_listWords_append (ws : List Word) (m : Memory) (lo : Nat)
    (hm : Memory.wfFrom (lo + ws.length) m = true) : Memory.wfFrom lo (listWords lo ws ++ m) = true := by
  induction ws generalizing lo with
  | nil => simpa [listWords] using hm
  | cons w ws ih =>
    have tail := ih (lo + 1) (by rwa [List.length_cons, ← Nat.add_assoc, Nat.add_right_comm] at hm)
    simp only [listWords]
    split
    · exact wfFrom_mono (by omega) tail
    · rename_i hw
      simp only [List.cons_append, Memory.wfFrom, tail, Bool.and_true, Bool.and_eq_true, decide_eq_true_eq]
      exact ⟨Nat.le_refl _, hw⟩

/-- The write of words `0 ..` keeps the canonical form. -/
theorem memFill_wf (ws : List Word) {m : Memory} (hm : Memory.wf m = true) : Memory.wf (memFill ws m) = true := by
  refine wfFrom_listWords_append ws _ 0 ?_
  have := wfFrom_filter (n := ws.length) (lo := 0) hm
  simpa using this

theorem listWords_below (ws : List Word) (lo bound : Nat) (h : lo + ws.length ≤ bound) :
    Memory.below bound (listWords lo ws) = true := by
  induction ws generalizing lo with
  | nil => rfl
  | cons w ws ih =>
    simp only [List.length_cons] at h
    have tail := ih (lo + 1) (by omega)
    simp only [listWords]
    split
    · exact tail
    · simp only [Memory.below, List.all_cons, Bool.and_eq_true, decide_eq_true_eq] at tail ⊢
      exact ⟨by omega, tail⟩

/-- The write of words `0 ..` stays below a bound that its last word is below. -/
theorem memFill_below (ws : List Word) {m : Memory} {bound : Nat} (h : ws.length ≤ bound)
    (hm : Memory.below bound m = true) : Memory.below bound (memFill ws m) = true := by
  have hl := listWords_below ws 0 bound (by omega)
  simp only [Memory.below, memFill, List.all_append, Bool.and_eq_true] at hl hm ⊢
  refine ⟨hl, ?_⟩
  simp only [List.all_eq_true, decide_eq_true_eq] at hm ⊢
  exact fun c hc => hm c (List.mem_filter.1 hc).1

/-- The key memory at reset has the canonical form. -/
theorem reset_memory_wf : Memory.wf State.reset.K = true := rfl

/-! ## Equal reads, equal memories -/

theorem memRead_of_lt_wfFrom {lo : Nat} {m : Memory} (hm : Memory.wfFrom lo m = true) {n : Nat} (hn : n < lo) :
    memRead m n = 0 := by
  induction m generalizing lo with
  | nil => rfl
  | cons c rest ih =>
    obtain ⟨k, v⟩ := c
    simp only [Memory.wfFrom, Bool.and_eq_true, decide_eq_true_eq] at hm
    rw [memRead, if_neg (by omega)]
    exact ih hm.2 (by omega)

theorem mem_ext_from {lo : Nat} {a b : Memory} (ha : Memory.wfFrom lo a = true) (hb : Memory.wfFrom lo b = true)
    (h : ∀ n, memRead a n = memRead b n) : a = b := by
  induction a generalizing lo b with
  | nil =>
    cases b with
    | nil => rfl
    | cons c rest =>
      obtain ⟨k, v⟩ := c
      simp only [Memory.wfFrom, Bool.and_eq_true, decide_eq_true_eq] at hb
      have hk := h k
      simp only [memRead, if_true] at hk
      exact absurd hk.symm hb.1.2
  | cons c rest ih =>
    obtain ⟨k, v⟩ := c
    simp only [Memory.wfFrom, Bool.and_eq_true, decide_eq_true_eq] at ha
    cases b with
    | nil =>
      have hk := h k
      simp only [memRead, if_true] at hk
      exact absurd hk ha.1.2
    | cons c' rest' =>
      obtain ⟨k', v'⟩ := c'
      simp only [Memory.wfFrom, Bool.and_eq_true, decide_eq_true_eq] at hb
      have hk : k = k' := by
        rcases Nat.lt_trichotomy k k' with hlt | he | hgt
        · have hr := h k
          rw [memRead, if_pos rfl, memRead, if_neg (by omega), memRead_of_lt_wfFrom hb.2 (by omega)] at hr
          exact absurd hr ha.1.2
        · exact he
        · have hr := h k'
          rw [memRead, if_neg (by omega), memRead, if_pos rfl, memRead_of_lt_wfFrom ha.2 (by omega)] at hr
          exact absurd hr.symm hb.1.2
      subst hk
      have hv : v = v' := by simpa [memRead] using h k
      subst hv
      congr 1
      refine ih ha.2 hb.2 fun n => ?_
      by_cases hn : n < k + 1
      · rw [memRead_of_lt_wfFrom ha.2 hn, memRead_of_lt_wfFrom hb.2 hn]
      · have hr := h n
        rwa [memRead, if_neg (by omega), memRead, if_neg (by omega)] at hr

/-- Two key memories in canonical form that read alike are equal. -/
theorem mem_ext {a b : Memory} (ha : Memory.wf a = true) (hb : Memory.wf b = true)
    (h : ∀ n, memRead a n = memRead b n) : a = b := mem_ext_from ha hb h

/-- A word at or beyond a bound every listed index is below reads 0. -/
theorem memRead_of_below {m : Memory} {bound n : Nat} (h : Memory.below bound m = true) (hn : bound ≤ n) :
    memRead m n = 0 := by
  refine memRead_of_not_any _ _ (Bool.eq_false_iff.2 fun hany => ?_)
  obtain ⟨c, hc, he⟩ := List.any_eq_true.1 hany
  have hlt := List.all_eq_true.1 h c hc
  simp only [beq_iff_eq, decide_eq_true_eq] at he hlt
  omega

end Sys2Proof.Machine
end

