-- ==== Sys2Proof/Laws/State.lean ====
section
/-! SUPPORT. One lemma per field per named update of the state, each true by rfl, so that no proof unfolds an update. -/

namespace Sys2Proof.Machine

@[simp] theorem respond_S (r : Response) (s : State) : (respond r s).S = s.S := rfl
@[simp] theorem respond_T (r : Response) (s : State) : (respond r s).T = s.T := rfl
@[simp] theorem respond_K (r : Response) (s : State) : (respond r s).K = s.K := rfl
@[simp] theorem respond_rounds (r : Response) (s : State) : (respond r s).rounds = s.rounds := rfl
@[simp] theorem respond_keymode (r : Response) (s : State) : (respond r s).keymode = s.keymode := rfl
@[simp] theorem respond_kvalid (r : Response) (s : State) : (respond r s).kvalid = s.kvalid := rfl
@[simp] theorem respond_err (r : Response) (s : State) : (respond r s).err = s.err := rfl
@[simp] theorem respond_maxRounds (r : Response) (s : State) : (respond r s).maxRounds = s.maxRounds := rfl
@[simp] theorem respond_din (r : Response) (s : State) : (respond r s).din = s.din := rfl
@[simp] theorem respond_resp (r : Response) (s : State) : (respond r s).resp = some r := rfl
@[simp] theorem respond_pending (r : Response) (s : State) : (respond r s).pending = s.pending := rfl
@[simp] theorem respond_random (r : Response) (s : State) : (respond r s).random = s.random := rfl
@[simp] theorem respond_drawn (r : Response) (s : State) : (respond r s).drawn = s.drawn := rfl
@[simp] theorem respond_source (r : Response) (s : State) : (respond r s).source = s.source := rfl

@[simp] theorem raise_S (f : FaultCode) (s : State) : (raise f s).S = s.S := rfl
@[simp] theorem raise_T (f : FaultCode) (s : State) : (raise f s).T = s.T := rfl
@[simp] theorem raise_K (f : FaultCode) (s : State) : (raise f s).K = s.K := rfl
@[simp] theorem raise_rounds (f : FaultCode) (s : State) : (raise f s).rounds = s.rounds := rfl
@[simp] theorem raise_keymode (f : FaultCode) (s : State) : (raise f s).keymode = s.keymode := rfl
@[simp] theorem raise_kvalid (f : FaultCode) (s : State) : (raise f s).kvalid = s.kvalid := rfl
@[simp] theorem raise_err (f : FaultCode) (s : State) : (raise f s).err = some (s.err.getD f) := rfl
@[simp] theorem raise_maxRounds (f : FaultCode) (s : State) : (raise f s).maxRounds = s.maxRounds := rfl
@[simp] theorem raise_din (f : FaultCode) (s : State) : (raise f s).din = s.din := rfl
@[simp] theorem raise_resp (f : FaultCode) (s : State) : (raise f s).resp = some (.err (s.err.getD f)) := rfl
@[simp] theorem raise_pending (f : FaultCode) (s : State) : (raise f s).pending = s.pending := rfl
@[simp] theorem raise_random (f : FaultCode) (s : State) : (raise f s).random = s.random := rfl
@[simp] theorem raise_drawn (f : FaultCode) (s : State) : (raise f s).drawn = s.drawn := rfl
@[simp] theorem raise_source (f : FaultCode) (s : State) : (raise f s).source = s.source := rfl

@[simp] theorem present_S (d : Word) (rest : List Input) (s : State) : (present d rest s).S = s.S := rfl
@[simp] theorem present_T (d : Word) (rest : List Input) (s : State) : (present d rest s).T = s.T := rfl
@[simp] theorem present_K (d : Word) (rest : List Input) (s : State) : (present d rest s).K = s.K := rfl
@[simp] theorem present_rounds (d : Word) (rest : List Input) (s : State) : (present d rest s).rounds = s.rounds := rfl
@[simp] theorem present_keymode (d : Word) (rest : List Input) (s : State) : (present d rest s).keymode = s.keymode := rfl
@[simp] theorem present_kvalid (d : Word) (rest : List Input) (s : State) : (present d rest s).kvalid = s.kvalid := rfl
@[simp] theorem present_err (d : Word) (rest : List Input) (s : State) : (present d rest s).err = s.err := rfl
@[simp] theorem present_maxRounds (d : Word) (rest : List Input) (s : State) : (present d rest s).maxRounds = s.maxRounds := rfl
@[simp] theorem present_din (d : Word) (rest : List Input) (s : State) : (present d rest s).din = d := rfl
@[simp] theorem present_resp (d : Word) (rest : List Input) (s : State) : (present d rest s).resp = s.resp := rfl
@[simp] theorem present_pending (d : Word) (rest : List Input) (s : State) : (present d rest s).pending = rest := rfl
@[simp] theorem present_random (d : Word) (rest : List Input) (s : State) : (present d rest s).random = s.random := rfl
@[simp] theorem present_drawn (d : Word) (rest : List Input) (s : State) : (present d rest s).drawn = s.drawn := rfl
@[simp] theorem present_source (d : Word) (rest : List Input) (s : State) : (present d rest s).source = s.source := rfl

@[simp] theorem takeInput_S (rest : List Input) (s : State) : (takeInput rest s).S = s.S := rfl
@[simp] theorem takeInput_T (rest : List Input) (s : State) : (takeInput rest s).T = s.T := rfl
@[simp] theorem takeInput_K (rest : List Input) (s : State) : (takeInput rest s).K = s.K := rfl
@[simp] theorem takeInput_rounds (rest : List Input) (s : State) : (takeInput rest s).rounds = s.rounds := rfl
@[simp] theorem takeInput_keymode (rest : List Input) (s : State) : (takeInput rest s).keymode = s.keymode := rfl
@[simp] theorem takeInput_kvalid (rest : List Input) (s : State) : (takeInput rest s).kvalid = s.kvalid := rfl
@[simp] theorem takeInput_err (rest : List Input) (s : State) : (takeInput rest s).err = s.err := rfl
@[simp] theorem takeInput_maxRounds (rest : List Input) (s : State) : (takeInput rest s).maxRounds = s.maxRounds := rfl
@[simp] theorem takeInput_din (rest : List Input) (s : State) : (takeInput rest s).din = s.din := rfl
@[simp] theorem takeInput_resp (rest : List Input) (s : State) : (takeInput rest s).resp = s.resp := rfl
@[simp] theorem takeInput_pending (rest : List Input) (s : State) : (takeInput rest s).pending = rest := rfl
@[simp] theorem takeInput_random (rest : List Input) (s : State) : (takeInput rest s).random = s.random := rfl
@[simp] theorem takeInput_drawn (rest : List Input) (s : State) : (takeInput rest s).drawn = s.drawn := rfl
@[simp] theorem takeInput_source (rest : List Input) (s : State) : (takeInput rest s).source = s.source := rfl

@[simp] theorem placeCommand_S (w : Cmd) (s : State) : (placeCommand w s).S = s.S := rfl
@[simp] theorem placeCommand_T (w : Cmd) (s : State) : (placeCommand w s).T = s.T := rfl
@[simp] theorem placeCommand_K (w : Cmd) (s : State) : (placeCommand w s).K = s.K := rfl
@[simp] theorem placeCommand_rounds (w : Cmd) (s : State) : (placeCommand w s).rounds = s.rounds := rfl
@[simp] theorem placeCommand_keymode (w : Cmd) (s : State) : (placeCommand w s).keymode = s.keymode := rfl
@[simp] theorem placeCommand_kvalid (w : Cmd) (s : State) : (placeCommand w s).kvalid = s.kvalid := rfl
@[simp] theorem placeCommand_err (w : Cmd) (s : State) : (placeCommand w s).err = s.err := rfl
@[simp] theorem placeCommand_maxRounds (w : Cmd) (s : State) : (placeCommand w s).maxRounds = s.maxRounds := rfl
@[simp] theorem placeCommand_din (w : Cmd) (s : State) : (placeCommand w s).din = s.din := rfl
@[simp] theorem placeCommand_resp (w : Cmd) (s : State) : (placeCommand w s).resp = s.resp := rfl
@[simp] theorem placeCommand_pending (w : Cmd) (s : State) : (placeCommand w s).pending = .command w s.din :: s.pending.tail := rfl
@[simp] theorem placeCommand_random (w : Cmd) (s : State) : (placeCommand w s).random = s.random := rfl
@[simp] theorem placeCommand_drawn (w : Cmd) (s : State) : (placeCommand w s).drawn = s.drawn := rfl
@[simp] theorem placeCommand_source (w : Cmd) (s : State) : (placeCommand w s).source = s.source := rfl

@[simp] theorem softReset_S (s : State) : (softReset s).S = zeroLanes := rfl
@[simp] theorem softReset_T (s : State) : (softReset s).T = zeroLanes := rfl
@[simp] theorem softReset_K (s : State) : (softReset s).K = s.K := rfl
@[simp] theorem softReset_rounds (s : State) : (softReset s).rounds = 0 := rfl
@[simp] theorem softReset_keymode (s : State) : (softReset s).keymode = .independent := rfl
@[simp] theorem softReset_kvalid (s : State) : (softReset s).kvalid = false := rfl
@[simp] theorem softReset_err (s : State) : (softReset s).err = none := rfl
@[simp] theorem softReset_maxRounds (s : State) : (softReset s).maxRounds = s.maxRounds := rfl
@[simp] theorem softReset_din (s : State) : (softReset s).din = s.din := rfl
@[simp] theorem softReset_resp (s : State) : (softReset s).resp = s.resp := rfl
@[simp] theorem softReset_pending (s : State) : (softReset s).pending = s.pending := rfl
@[simp] theorem softReset_random (s : State) : (softReset s).random = s.random := rfl
@[simp] theorem softReset_drawn (s : State) : (softReset s).drawn = s.drawn := rfl
@[simp] theorem softReset_source (s : State) : (softReset s).source = s.source := rfl

@[simp] theorem hardReset_S (l t : Lanes) (ws : List Word) (s : State) : (hardReset l t ws s).S = l := rfl
@[simp] theorem hardReset_T (l t : Lanes) (ws : List Word) (s : State) : (hardReset l t ws s).T = t := rfl
@[simp] theorem hardReset_K (l t : Lanes) (ws : List Word) (s : State) : (hardReset l t ws s).K = memFill (ws.take (keySize s)) [] := rfl
@[simp] theorem hardReset_rounds (l t : Lanes) (ws : List Word) (s : State) : (hardReset l t ws s).rounds = 0 := rfl
@[simp] theorem hardReset_keymode (l t : Lanes) (ws : List Word) (s : State) : (hardReset l t ws s).keymode = .independent := rfl
@[simp] theorem hardReset_kvalid (l t : Lanes) (ws : List Word) (s : State) : (hardReset l t ws s).kvalid = false := rfl
@[simp] theorem hardReset_err (l t : Lanes) (ws : List Word) (s : State) : (hardReset l t ws s).err = none := rfl
@[simp] theorem hardReset_maxRounds (l t : Lanes) (ws : List Word) (s : State) : (hardReset l t ws s).maxRounds = s.maxRounds := rfl
@[simp] theorem hardReset_din (l t : Lanes) (ws : List Word) (s : State) : (hardReset l t ws s).din = s.din := rfl
@[simp] theorem hardReset_resp (l t : Lanes) (ws : List Word) (s : State) : (hardReset l t ws s).resp = none := rfl
@[simp] theorem hardReset_pending (l t : Lanes) (ws : List Word) (s : State) : (hardReset l t ws s).pending = s.pending := rfl
@[simp] theorem hardReset_random (l t : Lanes) (ws : List Word) (s : State) : (hardReset l t ws s).random = s.random := rfl
@[simp] theorem hardReset_drawn (l t : Lanes) (ws : List Word) (s : State) : (hardReset l t ws s).drawn = s.drawn := rfl
@[simp] theorem hardReset_source (l t : Lanes) (ws : List Word) (s : State) : (hardReset l t ws s).source = s.source := rfl

@[simp] theorem mixKey_S (r : Nat) (s : State) : (mixKey r s).S = lanesOf fun i => lane s.S i ^^^ keyWord s.K r i := rfl
@[simp] theorem mixKey_T (r : Nat) (s : State) : (mixKey r s).T = s.T := rfl
@[simp] theorem mixKey_K (r : Nat) (s : State) : (mixKey r s).K = s.K := rfl
@[simp] theorem mixKey_rounds (r : Nat) (s : State) : (mixKey r s).rounds = s.rounds := rfl
@[simp] theorem mixKey_keymode (r : Nat) (s : State) : (mixKey r s).keymode = s.keymode := rfl
@[simp] theorem mixKey_kvalid (r : Nat) (s : State) : (mixKey r s).kvalid = s.kvalid := rfl
@[simp] theorem mixKey_err (r : Nat) (s : State) : (mixKey r s).err = s.err := rfl
@[simp] theorem mixKey_maxRounds (r : Nat) (s : State) : (mixKey r s).maxRounds = s.maxRounds := rfl
@[simp] theorem mixKey_din (r : Nat) (s : State) : (mixKey r s).din = s.din := rfl
@[simp] theorem mixKey_resp (r : Nat) (s : State) : (mixKey r s).resp = s.resp := rfl
@[simp] theorem mixKey_pending (r : Nat) (s : State) : (mixKey r s).pending = s.pending := rfl
@[simp] theorem mixKey_random (r : Nat) (s : State) : (mixKey r s).random = s.random := rfl
@[simp] theorem mixKey_drawn (r : Nat) (s : State) : (mixKey r s).drawn = s.drawn := rfl
@[simp] theorem mixKey_source (r : Nat) (s : State) : (mixKey r s).source = s.source := rfl

@[simp] theorem sboxLayer_S (s : State) : (sboxLayer s).S = sboxAll s.S := rfl
@[simp] theorem sboxLayer_T (s : State) : (sboxLayer s).T = s.T := rfl
@[simp] theorem sboxLayer_K (s : State) : (sboxLayer s).K = s.K := rfl
@[simp] theorem sboxLayer_rounds (s : State) : (sboxLayer s).rounds = s.rounds := rfl
@[simp] theorem sboxLayer_keymode (s : State) : (sboxLayer s).keymode = s.keymode := rfl
@[simp] theorem sboxLayer_kvalid (s : State) : (sboxLayer s).kvalid = s.kvalid := rfl
@[simp] theorem sboxLayer_err (s : State) : (sboxLayer s).err = s.err := rfl
@[simp] theorem sboxLayer_maxRounds (s : State) : (sboxLayer s).maxRounds = s.maxRounds := rfl
@[simp] theorem sboxLayer_din (s : State) : (sboxLayer s).din = s.din := rfl
@[simp] theorem sboxLayer_resp (s : State) : (sboxLayer s).resp = s.resp := rfl
@[simp] theorem sboxLayer_pending (s : State) : (sboxLayer s).pending = s.pending := rfl
@[simp] theorem sboxLayer_random (s : State) : (sboxLayer s).random = s.random := rfl
@[simp] theorem sboxLayer_drawn (s : State) : (sboxLayer s).drawn = s.drawn := rfl
@[simp] theorem sboxLayer_source (s : State) : (sboxLayer s).source = s.source := rfl

@[simp] theorem permLayer_S (s : State) : (permLayer s).S = permLanes s.S := rfl
@[simp] theorem permLayer_T (s : State) : (permLayer s).T = permLanes s.S := rfl
@[simp] theorem permLayer_K (s : State) : (permLayer s).K = s.K := rfl
@[simp] theorem permLayer_rounds (s : State) : (permLayer s).rounds = s.rounds := rfl
@[simp] theorem permLayer_keymode (s : State) : (permLayer s).keymode = s.keymode := rfl
@[simp] theorem permLayer_kvalid (s : State) : (permLayer s).kvalid = s.kvalid := rfl
@[simp] theorem permLayer_err (s : State) : (permLayer s).err = s.err := rfl
@[simp] theorem permLayer_maxRounds (s : State) : (permLayer s).maxRounds = s.maxRounds := rfl
@[simp] theorem permLayer_din (s : State) : (permLayer s).din = s.din := rfl
@[simp] theorem permLayer_resp (s : State) : (permLayer s).resp = s.resp := rfl
@[simp] theorem permLayer_pending (s : State) : (permLayer s).pending = s.pending := rfl
@[simp] theorem permLayer_random (s : State) : (permLayer s).random = s.random := rfl
@[simp] theorem permLayer_drawn (s : State) : (permLayer s).drawn = s.drawn := rfl
@[simp] theorem permLayer_source (s : State) : (permLayer s).source = s.source := rfl

@[simp] theorem roundWith_S (r : Nat) (s : State) : (roundWith r s).S = permLanes (sboxAll (mixKey r s).S) := rfl
@[simp] theorem roundWith_T (r : Nat) (s : State) : (roundWith r s).T = permLanes (sboxAll (mixKey r s).S) := rfl
@[simp] theorem roundWith_K (r : Nat) (s : State) : (roundWith r s).K = s.K := rfl
@[simp] theorem roundWith_rounds (r : Nat) (s : State) : (roundWith r s).rounds = s.rounds := rfl
@[simp] theorem roundWith_keymode (r : Nat) (s : State) : (roundWith r s).keymode = s.keymode := rfl
@[simp] theorem roundWith_kvalid (r : Nat) (s : State) : (roundWith r s).kvalid = s.kvalid := rfl
@[simp] theorem roundWith_err (r : Nat) (s : State) : (roundWith r s).err = s.err := rfl
@[simp] theorem roundWith_maxRounds (r : Nat) (s : State) : (roundWith r s).maxRounds = s.maxRounds := rfl
@[simp] theorem roundWith_din (r : Nat) (s : State) : (roundWith r s).din = s.din := rfl
@[simp] theorem roundWith_resp (r : Nat) (s : State) : (roundWith r s).resp = s.resp := rfl
@[simp] theorem roundWith_pending (r : Nat) (s : State) : (roundWith r s).pending = s.pending := rfl
@[simp] theorem roundWith_random (r : Nat) (s : State) : (roundWith r s).random = s.random := rfl
@[simp] theorem roundWith_drawn (r : Nat) (s : State) : (roundWith r s).drawn = s.drawn := rfl
@[simp] theorem roundWith_source (r : Nat) (s : State) : (roundWith r s).source = s.source := rfl

end Sys2Proof.Machine
end

