-- ==== Sys2Proof/Laws/Ops.lean ====
section
/-! SUPPORT. One law per shared operation that says everything it can do. -/

namespace Sys2Proof.Machine

/-! ## The order of checks -/

/-- A gated command on a unit that has faulted: refused with the latched code. -/
theorem gated_faulted {s : State} {c : FaultCode} (h : s.err = some c) (check : Option FaultCode) (r : Response)
    (effect : State) : gated check r effect s = .next (respond (.err c) s) := by simp [gated, h]

/-- A gated command on a unit with no fault latched, whose checks find a fault. -/
theorem gated_raise {s : State} (h : s.err = none) (f : FaultCode) (r : Response) (effect : State) :
    gated (some f) r effect s = .next (raise f s) := by simp [gated, h]

/-- A gated command on a unit with no fault latched, whose checks find none. -/
theorem gated_done {s : State} (h : s.err = none) (r : Response) (effect : State) :
    gated none r effect s = .next (respond r effect) := by simp [gated, h]

/-- Everything a gated command can do: refuse, take a fault, or complete. -/
theorem gated_cases (check : Option FaultCode) (r : Response) (effect s : State) :
    (∃ c, s.err = some c ∧ gated check r effect s = .next (respond (.err c) s)) ∨
    (∃ f, s.err = none ∧ check = some f ∧ gated check r effect s = .next (raise f s)) ∨
    (s.err = none ∧ check = none ∧ gated check r effect s = .next (respond r effect)) := by
  cases h : s.err with
  | some c => exact .inl ⟨c, rfl, gated_faulted h ..⟩
  | none =>
    cases check with
    | some f => exact .inr (.inl ⟨f, rfl, rfl, gated_raise h ..⟩)
    | none => exact .inr (.inr ⟨rfl, rfl, gated_done h ..⟩)

/-- A gated command always answers a next state. -/
theorem gated_next (check : Option FaultCode) (r : Response) (effect s : State) :
    ∃ t, gated check r effect s = .next t := by
  rcases gated_cases check r effect s with ⟨_, _, h⟩ | ⟨_, _, _, h⟩ | ⟨_, _, h⟩ <;> exact ⟨_, h⟩

/-- Two gated commands with the same latched code and the same check go the same way: their end states are related when
their refusals, their faults and their completions are. -/
theorem gated_related {c c' : Option FaultCode} {r r' : Response} {e e' s s' t : State} (R : State → State → Prop)
    (h : gated c r e s = .next t) (herr : s'.err = s.err) (hc : c' = c)
    (done : s.err = none → c = none → R (respond r e) (respond r' e'))
    (stopped : ∀ err code, R { s with err := err, resp := some (.err code) } { s' with err := err, resp := some (.err code) }) :
    ∃ t', gated c' r' e' s' = .next t' ∧ R t t' := by
  subst hc
  rcases gated_cases c' r e s with ⟨f, he, h'⟩ | ⟨f, he, hc, h'⟩ | ⟨he, hc, h'⟩ <;> rw [h'] at h <;> cases h
  · rw [gated_faulted (herr.trans he)]
    have hs := stopped s.err f
    rw [← herr] at hs
    exact ⟨_, rfl, by simpa [respond, ← herr] using hs⟩
  · rw [hc, gated_raise (herr.trans he)]
    exact ⟨_, rfl, by simpa [raise, he, herr] using stopped (some f) f⟩
  · rw [hc, gated_done (herr.trans he)]
    exact ⟨_, rfl, done he hc⟩

@[simp] theorem faultIf_true (f : FaultCode) : faultIf true f = some f := rfl
@[simp] theorem faultIf_false (f : FaultCode) : faultIf false f = none := rfl
@[simp] theorem faultIf_eq_none (c : Bool) (f : FaultCode) : faultIf c f = none ↔ c = false := by
  cases c <;> simp
@[simp] theorem faultIf_eq_some (c : Bool) (f g : FaultCode) : faultIf c f = some g ↔ c = true ∧ f = g := by
  cases c <;> simp
@[simp] theorem firstFault_eq_none (a b : Option FaultCode) : firstFault a b = none ↔ a = none ∧ b = none := by
  cases a <;> simp [firstFault]
@[simp] theorem firstFault_some (f : FaultCode) (b : Option FaultCode) : firstFault (some f) b = some f := rfl
@[simp] theorem firstFault_none (b : Option FaultCode) : firstFault none b = b := rfl

/-! ## The random source -/

theorem nthDraw_zero (s : State) : (draw s).1 = nthDraw s 0 := by
  unfold draw nthDraw
  split <;> simp_all

theorem nthDraw_succ (s : State) (n : Nat) : nthDraw (draw s).2 n = nthDraw s (n + 1) := by
  unfold draw nthDraw
  split
  · rename_i w ws h; simp [h]
  · rename_i h; simp [h]; congr 1; omega

theorem draw_state (s : State) :
    (draw s).2 = { s with random := s.random.drop 1, drawn := s.drawn + (1 - s.random.length) } := by
  unfold draw
  split <;> rename_i h <;> cases s <;> simp_all

/-- Everything `n` draws do: the words are the next `n`, in order, and they are consumed. -/
theorem drawMany_spec (n : Nat) (s : State) :
    drawMany n s = ((List.range n).map (nthDraw s),
      { s with random := s.random.drop n, drawn := s.drawn + (n - s.random.length) }) := by
  induction n generalizing s with
  | zero => simp [drawMany]
  | succ n ih =>
    have hd := draw_state s
    simp only [drawMany, ih]
    refine Prod.ext ?_ ?_
    · simp [List.range_succ_eq_map, nthDraw_zero, Function.comp_def, nthDraw_succ]
    · simp only [hd, List.drop_drop, List.length_drop]
      congr 1
      · congr 1; omega
      · omega

theorem drawMany_length (n : Nat) (s : State) : (drawMany n s).1.length = n := by simp [drawMany_spec]

/-! ## Key generation -/

/-- The words `KGEN` writes, word 0 first (43_key_strategies.md R175). -/
def keyWords (s : State) : List Word :=
  match s.keymode with
  | .independent => (drawMany (64 * (s.rounds.toNat + 1)) s).1
  | .constant => (List.replicate (s.rounds.toNat + 1) (drawMany 64 s).1).flatten

/-- How many words `KGEN` draws (43_key_strategies.md R175). -/
def drawCount (s : State) : Nat :=
  match s.keymode with
  | .independent => 64 * (s.rounds.toNat + 1)
  | .constant => 64

theorem keyWords_length (s : State) : (keyWords s).length = 64 * (s.rounds.toNat + 1) := by
  unfold keyWords
  split
  · simp [drawMany_length]
  · simp [drawMany_length, Nat.mul_comm]

/-- The words `KGEN` writes, and how many it draws, depend on nothing but `ROUNDS`, `KEYMODE` and the random source. -/
theorem keyWords_congr {s s' : State} (hr : s'.rounds = s.rounds) (hm : s'.keymode = s.keymode)
    (hw : s'.random = s.random) (hd : s'.drawn = s.drawn) (hs : s'.source = s.source) :
    keyWords s' = keyWords s ∧ drawCount s' = drawCount s := by
  have h : nthDraw s' = nthDraw s := by funext n; simp [nthDraw, hw, hd, hs]
  simp [keyWords, drawCount, drawMany_spec, hr, hm, h]

/-- Everything `KGEN`'s effect is: the key memory filled, the draws consumed, `KVALID` set, nothing else. -/
theorem generateKeys_spec (s : State) :
    generateKeys s = { s with
      K := memFill (keyWords s) s.K, kvalid := true
      random := s.random.drop (drawCount s), drawn := s.drawn + (drawCount s - s.random.length) } := by
  cases h : s.keymode <;> simp [generateKeys, generateIndependent, generateConstant, keyWords, drawCount, h, drawMany_spec]

/-! ## The rounds of an encryption -/

/-- Everything the rounds below `n` change: the lanes and the scratch buffer. -/
theorem roundsUpTo_frame (n : Nat) (s : State) :
    roundsUpTo n s = { s with S := (roundsUpTo n s).S, T := (roundsUpTo n s).T } := by
  induction n with
  | zero => rfl
  | succ n ih =>
    simp only [roundsUpTo, roundWith, permLayer, sboxLayer, mixKey]
    generalize (roundsUpTo n s).S = a, (roundsUpTo n s).T = b at ih
    rw [ih]

/-- Everything an encryption changes: the lanes and the scratch buffer. -/
theorem encrypt_frame (s : State) : encrypt s = { s with S := (encrypt s).S, T := (encrypt s).T } := by
  have h := roundsUpTo_frame s.rounds.toNat s
  simp only [encrypt, mixKey]
  generalize (roundsUpTo s.rounds.toNat s).S = a, (roundsUpTo s.rounds.toNat s).T = b at h
  rw [h]

end Sys2Proof.Machine
end

