-- ==== Sys2Proof/Laws/PerInstr.lean ====
section
/-! SUPPORT. The per-command family RowMatch: the word the encoder gives a command lies in that command's row of the
opcode map, whatever the operands (30_encoding.md R76). -/

namespace Sys2Proof.Laws

/-- A mask given field by field acts on a packed word field by field. -/
theorem packCmd_and (op a b : Nat) (m3 m2 m1 m0 : BitVec 8) :
    packCmd op a b &&& (m3 ++ m2 ++ m1 ++ m0 : BitVec 32) =
      ((BitVec.ofNat 8 op &&& m3) ++ (BitVec.ofNat 8 a &&& m2) ++ (BitVec.ofNat 8 b &&& m1) ++ (0 : BitVec 8) : BitVec 32) := by
  have h2 := BitVec.and_append (x₁ := BitVec.ofNat 8 op) (x₂ := m3) (y₁ := BitVec.ofNat 8 a) (y₂ := m2)
  have h1 := BitVec.and_append (x₁ := BitVec.ofNat 8 op ++ BitVec.ofNat 8 a) (x₂ := m3 ++ m2)
    (y₁ := BitVec.ofNat 8 b) (y₂ := m1)
  have h0 := BitVec.and_append (x₁ := BitVec.ofNat 8 op ++ BitVec.ofNat 8 a ++ BitVec.ofNat 8 b)
    (x₂ := m3 ++ m2 ++ m1) (y₁ := (0 : BitVec 8)) (y₂ := m0)
  rw [h1, h2] at h0
  simpa [packCmd] using h0

theorem and_allBits (x : BitVec 8) : x &&& 255#8 = x := BitVec.and_allOnes

/-- The encoding of the command matches its row of the opcode map. -/
def RowMatch.Statement (i : Instr) : Prop := matchesRow (rowOf i) (encode i) = true

theorem rowMatch_formatA (name : String) (op a : Nat) (bits : Cmd) (h : packCmd op 0 0 = bits) :
    matchesRow ⟨name, bits, 0xFF00FFFF⟩ (packCmd op a 0) = true := by
  have hm : (0xFF00FFFF : Cmd) = ((0xFF : BitVec 8) ++ (0 : BitVec 8) ++ (0xFF : BitVec 8) ++ (0xFF : BitVec 8) : BitVec 32) := by decide
  subst h
  simp only [matchesRow, hm, decide_eq_true_eq]
  rw [packCmd_and]
  simp [packCmd, and_allBits]

theorem rowMatch_formatAB (name : String) (op a b : Nat) (bits : Cmd) (h : packCmd op 0 0 = bits) :
    matchesRow ⟨name, bits, 0xFF0000FF⟩ (packCmd op a b) = true := by
  have hm : (0xFF0000FF : Cmd) = ((0xFF : BitVec 8) ++ (0 : BitVec 8) ++ (0 : BitVec 8) ++ (0xFF : BitVec 8) : BitVec 32) := by decide
  subst h
  simp only [matchesRow, hm, decide_eq_true_eq]
  rw [packCmd_and]
  simp [packCmd, and_allBits]

theorem RowMatch.nop : RowMatch.Statement .nop := rfl
theorem RowMatch.rst : RowMatch.Statement .rst := rfl
theorem RowMatch.wrs (i : Nat) : RowMatch.Statement (.wrs i) := rowMatch_formatA _ _ _ _ rfl
theorem RowMatch.rds (i : Nat) : RowMatch.Statement (.rds i) := rowMatch_formatA _ _ _ _ rfl
theorem RowMatch.rdk (r i : Nat) : RowMatch.Statement (.rdk r i) := rowMatch_formatAB _ _ _ _ _ rfl
theorem RowMatch.setr (n : Nat) : RowMatch.Statement (.setr n) := rowMatch_formatA _ _ _ _ rfl
theorem RowMatch.setm (m : Nat) : RowMatch.Statement (.setm m) := rowMatch_formatA _ _ _ _ rfl
theorem RowMatch.rdc (c : Nat) : RowMatch.Statement (.rdc c) := rowMatch_formatA _ _ _ _ rfl
theorem RowMatch.mir (d src : Nat) : RowMatch.Statement (.mir d src) := rowMatch_formatAB _ _ _ _ _ rfl
theorem RowMatch.trn : RowMatch.Statement .trn := rfl
theorem RowMatch.sbx (k : Nat) : RowMatch.Statement (.sbx k) := rowMatch_formatA _ _ _ _ rfl
theorem RowMatch.sbl : RowMatch.Statement .sbl := rfl
theorem RowMatch.pl : RowMatch.Statement .pl := rfl
theorem RowMatch.ak (r : Nat) : RowMatch.Statement (.ak r) := rowMatch_formatA _ _ _ _ rfl
theorem RowMatch.rnd (r : Nat) : RowMatch.Statement (.rnd r) := rowMatch_formatA _ _ _ _ rfl
theorem RowMatch.enc : RowMatch.Statement .enc := rfl
theorem RowMatch.kgen : RowMatch.Statement .kgen := rfl

end Sys2Proof.Laws
end

