-- ==== Sys2Proof/Laws/Step.lean ====
section
/-! SUPPORT. What one step can do, said once. -/

namespace Sys2Proof.Machine

theorem step_idle {s : State} (h : s.pending = []) : step s = .next s := by simp [step, h]

theorem step_hardReset {s : State} {l t : Lanes} {ws : List Word} {rest : List Input}
    (h : s.pending = .hardReset l t ws :: rest) : step s = .next (hardReset l t ws (takeInput rest s)) := by
  simp [step, h]

theorem step_illegal {s : State} {w : Cmd} {d : Word} {rest : List Input} {e : IllegalReason}
    (h : s.pending = .command w d :: rest) (hw : decode w = .error e) :
    step s = illegalCommand (present d rest s) := by simp [step, h, runCommand, hw]

/-- Everything an illegal word can do: a code and a response, with a code latched before kept. -/
theorem illegalCommand_next {s t : State} (h : illegalCommand s = .next t) :
    ∃ e r, t = { s with err := e, resp := r } ∧ (∀ c, s.err = some c → e = some c) ∧ e ≠ none := by
  rcases gated_cases (some .illegalCmd) .ok s s with ⟨_, he, h'⟩ | ⟨_, he, hc, h'⟩ | ⟨_, hc, _⟩
  · rw [illegalCommand, h'] at h
    cases h
    exact ⟨s.err, _, rfl, fun _ hc => hc, by simp [he]⟩
  · cases hc
    rw [illegalCommand, h'] at h
    cases h
    exact ⟨_, _, rfl, by simp [he], by simp⟩
  · cases hc

/-- Everything a step can do: idle, perform the hard-reset event, answer an illegal word, or execute a command. -/
theorem step_cases {s t : State} (h : step s = .next t) :
    (s.pending = [] ∧ t = s) ∨
    (∃ lanes scratch ws rest, s.pending = .hardReset lanes scratch ws :: rest ∧
      t = hardReset lanes scratch ws (takeInput rest s)) ∨
    (∃ w d rest e, s.pending = .command w d :: rest ∧ decode w = .error e ∧
      illegalCommand (present d rest s) = .next t) ∨
    (∃ w d rest i, s.pending = .command w d :: rest ∧ decode w = .ok i ∧ exec i (present d rest s) = .next t) := by
  cases hp : s.pending with
  | nil =>
    rw [step_idle hp] at h
    cases h
    exact .inl ⟨rfl, rfl⟩
  | cons x rest =>
    cases x with
    | hardReset l sc ws =>
      rw [step_hardReset hp] at h
      cases h
      exact .inr (.inl ⟨_, _, _, _, rfl, rfl⟩)
    | command w d =>
      cases hd : decode w with
      | error e =>
        rw [step_illegal hp hd] at h
        exact .inr (.inr (.inl ⟨_, _, _, _, rfl, hd, h⟩))
      | ok i =>
        simp only [step, hp, runCommand, hd] at h
        exact .inr (.inr (.inr ⟨_, _, _, _, rfl, hd, h⟩))

/-- `withFetchWord` puts the word where the next step takes it. -/
theorem withFetchWord_pending (s : State) (nbits w : Nat) :
    (s.withFetchWord nbits w).pending = .command (tableCmd nbits w) s.din :: s.pending.tail := rfl

/-! ## The arms of `exec`: every command but `RST` and `RDC` is gated -/

theorem exec_nop (s : State) :
    exec .nop s = gated none .ok s s := rfl
theorem exec_rst (s : State) :
    exec .rst s = .next (respond .ok (softReset s)) := rfl
theorem exec_wrs (i : Nat) (s : State) :
    exec (.wrs i) s = gated (laneFault i) .ok { s with S := setLane s.S i s.din } s := rfl
theorem exec_rds (i : Nat) (s : State) :
    exec (.rds i) s = gated (laneFault i) (.data (lane s.S i)) s s := rfl
theorem exec_rdk (r i : Nat) (s : State) :
    exec (.rdk r i) s = gated (firstFault (firstFault (blockFault r s) (laneFault i)) (keyFault s)) (.data (keyWord s.K r i)) s s := rfl
theorem exec_setr (n : Nat) (s : State) :
    exec (.setr n) s = gated (roundsFault n s) .ok { s with rounds := BitVec.ofNat 8 n, kvalid := false } s := rfl
theorem exec_setm (m : Nat) (s : State) :
    exec (.setm m) s = gated (modeFault m) .ok { s with keymode := modeOf m } s := rfl
theorem exec_mir (d src : Nat) (s : State) :
    exec (.mir d src) s = gated (firstFault (laneFault d) (laneFault src)) .ok { s with S := setLane s.S d (mirror (lane s.S src)) } s := rfl
theorem exec_trn (s : State) :
    exec .trn s = gated none .ok { s with T := transpose s.S, S := transpose s.S } s := rfl
theorem exec_sbx (k : Nat) (s : State) :
    exec (.sbx k) s = gated (groupFault k) .ok { s with S := sboxGroup k s.S } s := rfl
theorem exec_sbl (s : State) :
    exec .sbl s = gated none .ok (sboxLayer s) s := rfl
theorem exec_pl (s : State) :
    exec .pl s = gated none .ok (permLayer s) s := rfl
theorem exec_ak (r : Nat) (s : State) :
    exec (.ak r) s = gated (firstFault (blockFault r s) (keyFault s)) .ok (mixKey r s) s := rfl
theorem exec_rnd (r : Nat) (s : State) :
    exec (.rnd r) s = gated (firstFault (blockFault r s) (keyFault s)) .ok (roundWith r s) s := rfl
theorem exec_enc (s : State) :
    exec .enc s = gated (keyFault s) .ok (encrypt s) s := rfl
theorem exec_kgen (s : State) :
    exec .kgen s = gated none .ok (generateKeys s) s := rfl
theorem exec_rdc_in (c : Nat) (s : State) (h : c ≤ 3) :
    exec (.rdc c) s = .next (respond (.data (controlReg c s)) s) := by
  simp [exec, execRdc, regFault, faultIf, show ¬ 3 < c by omega]
theorem exec_rdc_out (c : Nat) (s : State) (h : 3 < c) : exec (.rdc c) s = .next (raise .badIndex s) := by
  simp [exec, execRdc, regFault, faultIf, h]

/-! ## What no step changes -/

theorem gated_fixed {check : Option FaultCode} {r : Response} {e s t : State} (h : gated check r e s = .next t)
    (hm : e.maxRounds = s.maxRounds) (hs : e.source = s.source) : t.maxRounds = s.maxRounds ∧ t.source = s.source := by
  rcases gated_cases check r e s with ⟨_, _, h'⟩ | ⟨_, _, _, h'⟩ | ⟨_, _, h'⟩ <;> rw [h'] at h <;> cases h
  · exact ⟨rfl, rfl⟩
  · exact ⟨rfl, rfl⟩
  · exact ⟨hm, hs⟩

/-- No command changes the parameter `MAX_ROUNDS` or which random source is the unit's. -/
theorem exec_fixed {i : Instr} {s t : State} (h : exec i s = .next t) :
    t.maxRounds = s.maxRounds ∧ t.source = s.source := by
  cases i with
  | rst => cases h; exact ⟨rfl, rfl⟩
  | rdc c =>
    by_cases hc : c ≤ 3
    · rw [exec_rdc_in c s hc] at h; cases h; exact ⟨rfl, rfl⟩
    · rw [exec_rdc_out c s (by omega)] at h; cases h; exact ⟨rfl, rfl⟩
  | enc =>
    rw [exec_enc, encrypt_frame] at h
    exact gated_fixed h rfl rfl
  | kgen =>
    rw [exec_kgen, generateKeys_spec] at h
    exact gated_fixed h rfl rfl
  | nop => rw [exec_nop] at h; exact gated_fixed h rfl rfl
  | trn => rw [exec_trn] at h; exact gated_fixed h rfl rfl
  | sbl => rw [exec_sbl] at h; exact gated_fixed h rfl rfl
  | pl => rw [exec_pl] at h; exact gated_fixed h rfl rfl
  | _ => exact gated_fixed h rfl rfl

/-- No step changes the parameter `MAX_ROUNDS` or which random source is the unit's. -/
theorem step_fixed {s t : State} (h : step s = .next t) : t.maxRounds = s.maxRounds ∧ t.source = s.source := by
  rcases step_cases h with ⟨_, rfl⟩ | ⟨_, _, _, _, _, rfl⟩ | ⟨_, _, _, _, _, _, hi⟩ | ⟨_, _, _, _, _, _, hi⟩
  · exact ⟨rfl, rfl⟩
  · exact ⟨rfl, rfl⟩
  · obtain ⟨_, _, rfl, _⟩ := illegalCommand_next hi
    exact ⟨rfl, rfl⟩
  · have hf := exec_fixed hi
    exact hf

end Sys2Proof.Machine
end

