-- ==== Sys2Proof/Tests/Slice0.lean ====
section
/-! SUPPORT. Tests: ill-formed commands refused, decoding of words written out from the spec, one-step tests from the
spec's vectors (95_test_vectors.md), and a witness for the hypotheses of every obligation that has some. -/

namespace Sys2Proof.Tests

open Sys2Proof.Machine

-- One theorem is checked at a time: a check in progress holds a thread and its stack.
set_option Elab.async false

/-! ## Small states -/

/-- The unit after the word `w`, with data word `d`, is presented in state `s` and one step is taken. -/
def ran (w : Cmd) (d : Word) (s : State) : State := stepOf { s with pending := [.command w d] }

/-- The key material of vector G1: `K[n] = 1000 + n` for `n` in `0 .. 191`. -/
def countingKey : Memory := listWords 0 (tabulate (fun n => BitVec.ofNat 64 (1000 + n)) 192 0)

/-- `ROUNDS = 2` and the key material of vector G1 present. -/
def keyed : State := { State.reset with rounds := 2, kvalid := true, K := countingKey }

/-- A unit whose first fault was `KEY_INVALID` (program P5, line 1). -/
def stopped : State := { State.reset with err := some .keyInvalid }

/-- `S[i] = i`. -/
def countingLanes : Lanes := lanesOf fun i => BitVec.ofNat 64 i

/-- The lanes of which instance `j` is the word `rows j`, for `j` in `0 .. 63`. -/
def lanesOfRows (rows : Nat → Word) : Lanes := transpose (lanesOf rows)

/-- The key of program P4: block 0 zero, block 1 zero but for lanes 62 and 63. -/
def p4 : State :=
  { State.reset with
    rounds := 1, kvalid := true, K := [(126, ones), (127, ones)]
    S := lanesOfRows fun j => if j = 0 then 0x0123456789ABCDEF else if j = 1 then 0xFEDCBA9876543210 else 0 }

/-! ## Ill-formed commands: an operand that does not fit its 8-bit field (30_encoding.md R75) -/

theorem test_wf_wrs : wellFormed (.wrs 256) = false ∧ wellFormed (.wrs 255) = true := by decide
theorem test_wf_rds : wellFormed (.rds 256) = false ∧ wellFormed (.rds 255) = true := by decide
theorem test_wf_rdk :
    wellFormed (.rdk 256 0) = false ∧ wellFormed (.rdk 0 256) = false ∧ wellFormed (.rdk 255 255) = true := by decide
theorem test_wf_setr : wellFormed (.setr 256) = false ∧ wellFormed (.setr 255) = true := by decide
theorem test_wf_setm : wellFormed (.setm 256) = false ∧ wellFormed (.setm 255) = true := by decide
theorem test_wf_rdc : wellFormed (.rdc 256) = false ∧ wellFormed (.rdc 255) = true := by decide
theorem test_wf_mir :
    wellFormed (.mir 256 0) = false ∧ wellFormed (.mir 0 256) = false ∧ wellFormed (.mir 255 255) = true := by decide
theorem test_wf_sbx : wellFormed (.sbx 256) = false ∧ wellFormed (.sbx 255) = true := by decide
theorem test_wf_ak : wellFormed (.ak 256) = false ∧ wellFormed (.ak 255) = true := by decide
theorem test_wf_rnd : wellFormed (.rnd 256) = false ∧ wellFormed (.rnd 255) = true := by decide

/-! ## Decoding: words written out field by field, `op ++ a ++ b ++ c`, from 30_encoding.md R70 to R76 -/

theorem test_decode_nop : decode (0b00000000#8 ++ 0b00000000#8 ++ 0b00000000#8 ++ 0b00000000#8) = .ok .nop := by decide
theorem test_decode_rst : decode (0b00000001#8 ++ 0b00000000#8 ++ 0b00000000#8 ++ 0b00000000#8) = .ok .rst := by decide
theorem test_decode_wrs : decode (0b00010000#8 ++ 0b00000101#8 ++ 0b00000000#8 ++ 0b00000000#8) = .ok (.wrs 5) := by decide
theorem test_decode_rds : decode (0b00010001#8 ++ 0b01000000#8 ++ 0b00000000#8 ++ 0b00000000#8) = .ok (.rds 64) := by decide
theorem test_decode_rdk : decode (0b00010010#8 ++ 0b00000010#8 ++ 0b00111111#8 ++ 0b00000000#8) = .ok (.rdk 2 63) := by decide
theorem test_decode_setr : decode (0b00011000#8 ++ 0b00011111#8 ++ 0b00000000#8 ++ 0b00000000#8) = .ok (.setr 31) := by decide
theorem test_decode_setm : decode (0b00011001#8 ++ 0b00000010#8 ++ 0b00000000#8 ++ 0b00000000#8) = .ok (.setm 2) := by decide
theorem test_decode_rdc : decode (0b00011010#8 ++ 0b00000011#8 ++ 0b00000000#8 ++ 0b00000000#8) = .ok (.rdc 3) := by decide
theorem test_decode_mir : decode (0b00100000#8 ++ 0b00000110#8 ++ 0b10000001#8 ++ 0b00000000#8) = .ok (.mir 6 129) := by decide
theorem test_decode_trn : decode (0b00100001#8 ++ 0b00000000#8 ++ 0b00000000#8 ++ 0b00000000#8) = .ok .trn := by decide
theorem test_decode_sbx : decode (0b00110000#8 ++ 0b00001111#8 ++ 0b00000000#8 ++ 0b00000000#8) = .ok (.sbx 15) := by decide
theorem test_decode_sbl : decode (0b00110001#8 ++ 0b00000000#8 ++ 0b00000000#8 ++ 0b00000000#8) = .ok .sbl := by decide
theorem test_decode_pl : decode (0b00110010#8 ++ 0b00000000#8 ++ 0b00000000#8 ++ 0b00000000#8) = .ok .pl := by decide
theorem test_decode_ak : decode (0b00110011#8 ++ 0b00000011#8 ++ 0b00000000#8 ++ 0b00000000#8) = .ok (.ak 3) := by decide
theorem test_decode_rnd : decode (0b00110100#8 ++ 0b11111111#8 ++ 0b00000000#8 ++ 0b00000000#8) = .ok (.rnd 255) := by decide
theorem test_decode_enc : decode (0b00110101#8 ++ 0b00000000#8 ++ 0b00000000#8 ++ 0b00000000#8) = .ok .enc := by decide
theorem test_decode_kgen : decode (0b01000000#8 ++ 0b00000000#8 ++ 0b00000000#8 ++ 0b00000000#8) = .ok .kgen := by decide

/-- The illegal words of 95_test_vectors.md: T4, `TRN` with a nonzero field, S7, A4, A8, A9. -/
theorem test_decode_illegal :
    [0x20000001, 0x21000001, 0x30000100, 0x31010000, 0x10000100, 0x00000001, 0x02000000, 0xFF000000].map
      (fun w => decoded (decode w)) = List.replicate 8 none := by decide

/-- An operand out of its legal range still decodes (30_encoding.md R75): T3, S7, A2, A6. -/
theorem test_decode_out_of_range :
    decode 0x20400000 = .ok (.mir 64 0) ∧ decode 0x30100000 = .ok (.sbx 16) ∧ decode 0x10400000 = .ok (.wrs 64) ∧
      decode 0x18200000 = .ok (.setr 32) := by decide

/-- The word of `RDK 2, 63` in 95_test_vectors.md G1. -/
theorem test_encode_rdk : encode (.rdk 2 63) = 0x12023F00 := by decide

/-- The opcode table's bits of `SETR`, and a step from reset that runs it. -/
theorem test_withFetchWord :
    decodeTableWord 32 0x181F0000 = some (.setr 31) ∧
      (stepOf (State.reset.withFetchWord 32 0x181F0000)).rounds = 31 := by decide

/-! ## Access and control commands -/

/-- A8. -/
theorem test_nop : ran 0x00000000 1 keyed = { keyed with din := 1, resp := some .ok } := by decide +kernel
/-- A8: the word 0x00000001. -/
theorem test_illegal : (ran 0x00000001 0 keyed).resp = some (.err .illegalCmd) ∧
    (ran 0x00000001 0 keyed).err = some .illegalCmd := by decide +kernel

/-- P5, line 6. -/
theorem test_rst_faulted :
    ran 0x01000000 0 { keyed with err := some .keyInvalid, S := countingLanes } =
      { State.reset with K := countingKey, resp := some .ok } := by decide +kernel
/-- `RST` with a nonzero reserved field is illegal even while a fault is latched. -/
theorem test_rst_ill_formed : (ran 0x01000001 0 stopped).resp = some (.err .keyInvalid) := by decide +kernel

/-- A2. -/
theorem test_wrs_last : lane (ran 0x103F0000 ones State.reset).S 63 = ones ∧
    lane (ran 0x103F0000 ones State.reset).S 62 = 0 := by decide +kernel
/-- A2. -/
theorem test_wrs_range : ran 0x10400000 ones State.reset =
    { State.reset with din := ones, err := some .badIndex, resp := some (.err .badIndex) } := by decide +kernel

/-- A1. -/
theorem test_rds : (ran 0x11050000 0 (ran 0x10050000 0x0000000000000200 State.reset)).resp =
    some (.data 0x0000000000000200) := by decide +kernel
/-- A3. -/
theorem test_rds_range : (ran 0x11400000 0 State.reset).resp = some (.err .badIndex) := by decide +kernel

/-- G1. -/
theorem test_rdk : (ran 0x12000000 0 keyed).resp = some (.data 0x00000000000003E8) ∧
    (ran 0x12023F00 0 keyed).resp = some (.data 0x00000000000004A7) := by decide +kernel
/-- Range before key, then key (60_exceptions.md R227). -/
theorem test_rdk_order : (ran 0x12010000 0 State.reset).resp = some (.err .badIndex) ∧
    (ran 0x12000000 0 State.reset).resp = some (.err .keyInvalid) := by decide +kernel

/-- A6. -/
theorem test_setr : (ran 0x181F0000 0 keyed).rounds = 31 ∧ (ran 0x181F0000 0 keyed).kvalid = false := by decide +kernel
/-- A6. -/
theorem test_setr_range : (ran 0x18200000 0 keyed).resp = some (.err .badConfig) ∧
    (ran 0x18200000 0 keyed).rounds = 2 := by decide +kernel

/-- A7, G5. -/
theorem test_setm : (ran 0x19010000 0 keyed).keymode = .constant ∧ (ran 0x19010000 0 keyed).kvalid = true := by
  decide +kernel
/-- A7. -/
theorem test_setm_range : (ran 0x19020000 0 keyed).resp = some (.err .badConfig) ∧
    (ran 0x19020000 0 keyed).keymode = .independent := by decide +kernel

/-- A5. -/
theorem test_rdc_cap : (ran 0x1A030000 0 State.reset).resp = some (.data 0x000000000000401F) := by decide +kernel
/-- P5, lines 21 and 5. -/
theorem test_rdc_status :
    (ran 0x1A020000 0 { keyed with err := some .badIndex }).resp = some (.data 0x0000000000000031) ∧
      (ran 0x1A090000 0 stopped).resp = some (.err .keyInvalid) := by decide +kernel

/-! ## Bit-transposition engine -/

/-- T2: the source is the destination. -/
theorem test_mir_self : lane (ran 0x20070700 0 { State.reset with S := setLane zeroLanes 7 0x00000000000000F0 }).S 7 =
    0x0F00000000000000 := by decide +kernel
/-- T1: which operand is the destination. -/
theorem test_mir : lane (ran 0x20060000 0 { State.reset with S := setLane zeroLanes 0 1 }).S 6 = 0x8000000000000000 ∧
    lane (ran 0x20060000 0 { State.reset with S := setLane zeroLanes 0 1 }).S 0 = 1 := by decide +kernel

/-- Section 2.1: `S[i] = i`. -/
theorem test_trn : (ran 0x21000000 0 { State.reset with S := countingLanes }).S =
    lanesOf fun j => [0xAAAAAAAAAAAAAAAA, 0xCCCCCCCCCCCCCCCC, 0xF0F0F0F0F0F0F0F0, 0xFF00FF00FF00FF00,
      0xFFFF0000FFFF0000, 0xFFFFFFFF00000000].getD j 0 := by decide +kernel
/-- Section 2.1: a single bit. -/
theorem test_trn_bit : (ran 0x21000000 0 { State.reset with S := setLane zeroLanes 5 0x0000000000000200 }).S =
    setLane zeroLanes 9 0x0000000000000020 := by decide +kernel

/-! ## S-box array -/

/-- The lanes of vector S1, in the group that starts at lane `n`. -/
def s1 (n : Nat) : Lanes :=
  setLane (setLane (setLane (setLane countingLanes n 0x000000000000AAAA) (n + 1) 0x000000000000CCCC) (n + 2)
    0x000000000000F0F0) (n + 3) 0x000000000000FF00

/-- S1: all 16 inputs. -/
theorem test_sbx : groupQuad (ran 0x30000000 0 { State.reset with S := s1 0 }).S 0 =
    ⟨0x000000000000659A, 0x000000000000A74C, 0xFFFFFFFFFFFF3687, 0xFFFFFFFFFFFF0ED9⟩ := by decide +kernel
/-- S4: the group at lane 20, and its neighbours. -/
theorem test_sbx_group : groupQuad (ran 0x30050000 0 { State.reset with S := s1 20 }).S 5 =
      ⟨0x000000000000659A, 0x000000000000A74C, 0xFFFFFFFFFFFF3687, 0xFFFFFFFFFFFF0ED9⟩ ∧
    groupQuad (ran 0x30050000 0 { State.reset with S := s1 20 }).S 4 = ⟨16, 17, 18, 19⟩ ∧
    groupQuad (ran 0x30050000 0 { State.reset with S := s1 20 }).S 6 = ⟨24, 25, 26, 27⟩ := by decide +kernel

/-- S2: the table's function on the same words. -/
theorem test_sboxByTable : sboxByTable ⟨0xAAAAAAAAAAAAAAAA, 0xCCCCCCCCCCCCCCCC, 0xF0F0F0F0F0F0F0F0, 0xFF00FF00FF00FF00⟩ =
    ⟨0x659A659A659A659A, 0xA74CA74CA74CA74C, 0x3687368736873687, 0x0ED90ED90ED90ED9⟩ := by decide +kernel

/-- S5. -/
theorem test_sbl : (ran 0x31000000 0 State.reset).S = lanesOf fun i => if i % 4 < 2 then 0 else ones := by decide +kernel
/-- S6. -/
theorem test_sbl_rows : row (ran 0x31000000 0 p4).S 0 = 0xC56B90AD3EF84712 ∧
    row (ran 0x31000000 0 p4).S 1 = 0x21748FE3DA09B65C := by decide +kernel

/-! ## Round-function pipeline -/

/-- K1, and the second `AK` of it. -/
theorem test_ak :
    lane (ran 0x33000000 0 { keyed with S := setLane zeroLanes 3 0x00000000FFFFFFFF, K := [(3, 0x0303030303030303)] }).S 3 =
      0x03030303FCFCFCFC := by decide +kernel
/-- K2: the range is checked before the key. -/
theorem test_ak_faults : (ran 0x33000000 0 State.reset).resp = some (.err .keyInvalid) ∧
    (ran 0x33010000 0 State.reset).resp = some (.err .badIndex) ∧ (ran 0x33030000 0 keyed).resp = some (.err .badIndex) ∧
    (ran 0x33020000 0 keyed).resp = some .ok := by decide +kernel

/-- L1. -/
theorem test_pl : (ran 0x32000000 0 { State.reset with S := countingLanes }).S =
    lanesOf fun i => BitVec.ofNat 64 (4 * (i % 16) + i / 16) := by decide +kernel
/-- L2. -/
theorem test_pl_rows :
    row (ran 0x32000000 0 { State.reset with S := lanesOfRows fun _ => 0x0123456789ABCDEF }).S 7 = 0x00FF0F0F33335555 ∧
      permBits 0x0000000000000002 = 0x0000000000010000 := by decide +kernel

/-- R1. -/
theorem test_rnd : (ran 0x34000000 0 { State.reset with kvalid := true }).S =
    lanesOf fun i => if i < 32 then 0 else ones := by decide +kernel

/-- P4, steps 10 to 19. -/
theorem test_enc : row (ran 0x35000000 0 p4).S 0 = 0x5B70E16C32E559A6 ∧
    row (ran 0x35000000 0 p4).S 1 = 0xCED93687A74C659A ∧ row (ran 0x35000000 0 p4).S 2 = 0x3FFFFFFF00000000 ∧
    lane (ran 0x35000000 0 p4).S 32 = 0xFFFFFFFFFFFFFFFE := by decide +kernel
/-- P2: lane 3 with `ROUNDS = 0`. -/
theorem test_enc_zero :
    lane (ran 0x35000000 0 { State.reset with
      kvalid := true, S := setLane zeroLanes 3 0x00000000FFFFFFFF, K := [(3, 0x0303030303030303)] }).S 3 =
      0x03030303FCFCFCFC := by decide +kernel

/-- The round keys of the all-zero master key (section 1.1). -/
def zeroMasterKeys : List Word :=
  [0x0000000000000000, 0xC000000000000000, 0x5000180000000001, 0x60000A0003000001,
   0xB0000C0001400062, 0x900016000180002A, 0x0001920002C00033, 0xA000A0003240005B,
   0xD000D4001400064C, 0x30017A001A800284, 0xE01926002F400355, 0xF00A1C0324C005ED,
   0x800D5E014380649E, 0x4017B001ABC02876, 0x71926802F600357F, 0x10A1CE324D005EC7] ++
  [0x20D5E21439C649A8, 0xC17B041ABC428730, 0xC926B82F60835781, 0x6A1CD924D705EC19,
   0xBD5E0D439B249AEA, 0x07B077ABC1A8736E, 0x426BA0F60EF5783E, 0x41CDA84D741EC1D5,
   0xF5E0E839B509AE8F, 0x2B075EBC1D0736AD, 0x86BA2560EBD783AD, 0x8CDAB0D744AC1D77,
   0x1E0EB19B561AE89B, 0xD075C3C1D6336ACD, 0x8BA27A0EB8783AC9, 0x6DAB31744F41D700]

/-- The known answer of the source (V5), for the ordinary cipher that `ENC` refines. -/
theorem test_known_answer : rowEncrypt (fun r => zeroMasterKeys.getD r 0) 31 0 = 0x5579C1387B228445 := by decide +kernel

/-! ## Key-strategy generator -/

/-- G1: 192 words are consumed of 193 offered, the last of them is `K[191]`. -/
theorem test_kgen :
    (fun t : State => (t.random, memRead t.K 0, memRead t.K 191, t.kvalid))
      (ran 0x40000000 0 { State.reset with
        rounds := 2, random := tabulate (fun n => BitVec.ofNat 64 (1000 + n)) 193 0 }) =
      ([1192], 1000, 1191, true) := by decide +kernel
/-- With no word ready, each unit takes the free words of its own source (10_state.md R32). -/
theorem test_draw_own_source (k : Nat) :
    (draw { State.reset with source := k }).1 = Config.randomWord k 0 ∧
      (draw (draw { State.reset with source := k }).2).1 = Config.randomWord k 1 := ⟨rfl, rfl⟩
/-- G2: a 65th word offered stays unconsumed. -/
theorem test_kgen_constant :
    (fun t : State => (t.random, memRead t.K 5, memRead t.K 69, memRead t.K 133, memRead t.K 197))
      (ran 0x40000000 0 { State.reset with
        rounds := 2, keymode := .constant
        random := tabulate (fun n => 0x1111111111111111 * BitVec.ofNat 64 (n % 16)) 65 0 }) =
      ([0], 0x5555555555555555, 0x5555555555555555, 0x5555555555555555, 0) := by decide +kernel

/-! ## Witnesses: states and operands that meet the hypotheses of each obligation, each clause at the ends of its range

`Refuses`, and the refusal clauses, are met by `stopped`; `AnswersIllegal` by `State.reset` and `stopped`; the reserved
fields of `EncodingZ`, `EncodingA` and `EncodingAB` by the words of `witness_reserved_fields`. -/

/-- A unit to which the platform presents hard reset. -/
def resetting : State := { keyed with pending := [.hardReset countingLanes zeroLanes [7]] }

/-- `ENC` presented to a unit that can run it. -/
def encNext : State := { keyed with pending := [.command 0x35000000 0] }

/-- Two illegal words presented to a stopped unit, then `RST`. -/
def stoppedNext : State :=
  { stopped with
    resp := some (.err .keyInvalid)
    pending := [.command 0x10000000 1, .command 0xFF000000 0, .command 0x01000000 0] }

theorem witness_no_fault : State.reset.err = none ∧ keyed.err = none ∧ stopped.err = some .keyInvalid := by decide

theorem witness_reserved_fields :
    (∀ op ∈ [0x00, 0x01, 0x21, 0x31, 0x32, 0x35, 0x40],
      opField (BitVec.ofNat 32 (op <<< 24 ||| 0x010000)) = op ∧ aField (BitVec.ofNat 32 (op <<< 24 ||| 0x010000)) ≠ 0 ∧
      opField (BitVec.ofNat 32 (op <<< 24 ||| 0x000100)) = op ∧ bField (BitVec.ofNat 32 (op <<< 24 ||| 0x000100)) ≠ 0 ∧
      opField (BitVec.ofNat 32 (op <<< 24 ||| 0x0000FF)) = op ∧ cField (BitVec.ofNat 32 (op <<< 24 ||| 0x0000FF)) ≠ 0) ∧
    (∀ op ∈ [0x10, 0x11, 0x18, 0x19, 0x1A, 0x30, 0x33, 0x34],
      opField (BitVec.ofNat 32 (op <<< 24 ||| 0xFF0100)) = op ∧ bField (BitVec.ofNat 32 (op <<< 24 ||| 0xFF0100)) ≠ 0 ∧
      opField (BitVec.ofNat 32 (op <<< 24 ||| 0x000001)) = op ∧ cField (BitVec.ofNat 32 (op <<< 24 ||| 0x000001)) ≠ 0) ∧
    (∀ op ∈ [0x12, 0x20],
      opField (BitVec.ofNat 32 (op <<< 24 ||| 0xFFFF01)) = op ∧ cField (BitVec.ofNat 32 (op <<< 24 ||| 0xFFFF01)) ≠ 0) := by
  decide

theorem witness_HardResetClearsControlFields :
    resetting.pending = .hardReset countingLanes zeroLanes [7] :: [] ∧ 0 < keySize resetting ∧ 2047 < keySize resetting :=
  ⟨rfl, by decide, by decide⟩

theorem keyed_inv : UnitInv keyed := ⟨by decide, by decide, by decide, fun _ h => by cases h⟩

theorem witness_StepKeepsInvariant :
    (∃ t, UnitInv encNext ∧ step encNext = .next t) ∧ (∃ t, UnitInv stoppedNext ∧ step stoppedNext = .next t) ∧
      ∃ t, UnitInv resetting ∧ step resetting = .next t :=
  ⟨⟨_, ⟨by decide, by decide, by decide, fun _ h => by cases h⟩, rfl⟩,
    ⟨_, ⟨by decide, by decide, by decide, fun _ h => by cases h; rfl⟩, rfl⟩,
    ⟨_, ⟨by decide, by decide, by decide, fun _ h => by cases h⟩, rfl⟩⟩

theorem witness_StepRunsDecodedCommand :
    encNext.pending = .command 0x35000000 0 :: [] ∧ decode 0x35000000 = .ok .enc ∧ State.reset.pending = [] := by decide

theorem witness_UnmatchedWordIsIllegal :
    (∀ row ∈ opcodeTable, matchesRow row 0x02000000 = false) ∧ (∀ row ∈ opcodeTable, matchesRow row 0x21000001 = false) ∧
      ∀ row ∈ opcodeTable, matchesRow row 0xFFFFFFFF = false := by decide

theorem witness_OpcodeMapDecides :
    decode 0x12023F00 = .ok (.rdk 2 63) ∧ rowOf (.rdk 0 0) ∈ opcodeTable ∧
      matchesRow (rowOf (.rdk 0 0)) 0x12023F00 = true := by decide

theorem witness_DecodeOfEncode :
    wellFormed (.rdk 255 0) = true ∧ wellFormed (.mir 0 255) = true ∧ wellFormed .kgen = true := by decide

theorem witness_EncodeOfDecode : decode 0x20FFFF00 = .ok (.mir 255 255) ∧ decode 0x40000000 = .ok .kgen := by decide

theorem witness_NopDoesNothing : State.reset.err = none ∧ stopped.err = some .keyInvalid := by decide

theorem witness_RstClearsUnit :
    0 < 64 ∧ 63 < 64 ∧ exec .rst stopped = .next (respond .ok (softReset stopped)) ∧ stopped.err ≠ none ∧
      (respond .ok (softReset stopped)).err = none := ⟨by decide, by decide, rfl, by decide, rfl⟩

theorem witness_WrsWritesOneLane :
    keyed.err = none ∧ 0 ≤ 63 ∧ 63 ≤ 63 ∧ 62 ≠ 63 ∧ 63 < 64 ∧ stopped.err = some .keyInvalid := by decide

theorem witness_RdsReadsOneLane : keyed.err = none ∧ 0 ≤ 63 ∧ 63 ≤ 63 ∧ 63 < 64 ∧ stopped.err = some .keyInvalid := by
  decide

theorem witness_RdkReadsOneKeyWord :
    (keyed.err = none ∧ 0 ≤ keyed.rounds.toNat ∧ 2 ≤ keyed.rounds.toNat ∧ 63 ≤ 63 ∧ keyed.kvalid = true) ∧
      keyed.rounds.toNat < 3 ∧ 63 < 64 ∧
      (State.reset.err = none ∧ 0 ≤ State.reset.rounds.toNat ∧ State.reset.kvalid = false) ∧
      ∃ t, exec (.rdk 2 63) keyed = .next t := ⟨by decide, by decide, by decide, by decide, _, rfl⟩

theorem witness_SetrSetsRoundCount :
    keyed.err = none ∧ 0 ≤ keyed.maxRounds.toNat ∧ 31 ≤ keyed.maxRounds.toNat ∧ keyed.maxRounds.toNat < 32 := by decide

theorem witness_SetmSelectsStrategy : keyed.err = none ∧ 0 ≤ 1 ∧ 1 ≤ 1 ∧ 1 < 2 := by decide

theorem witness_RdcReadsControlRegister :
    0 ≤ 3 ∧ 3 ≤ 3 ∧ State.reset.err = none ∧ 3 < 4 ∧ stopped.err = some .keyInvalid := by decide

theorem witness_MirMirrorsOneLane : keyed.err = none ∧ 0 ≤ 63 ∧ 63 ≤ 63 ∧ 6 ≠ 7 ∧ 63 < 64 := by decide

theorem witness_TrnTransposes : keyed.err = none ∧ stopped.err = some .keyInvalid ∧ 0 < 64 ∧ 63 < 64 := by decide

theorem witness_MirrorLaws :
    mirror 0x8000000000000001 = 0x8000000000000001 ∧
      ∀ i, i < 64 → BitVec.getLsbD (0x8000000000000001 : Word) i = BitVec.getLsbD (0x8000000000000001 : Word) (63 - i) := by
  decide

theorem witness_TransposeLaws : keyed.err = none ∧ 0 < 64 ∧ 63 < 64 := by decide

theorem witness_TrnExchangesRowsAndLanes : keyed.err = none ∧ 0 < 64 ∧ 63 < 64 := by decide

theorem witness_SboxEqualsTable : 0 < 4 ∧ 3 < 4 ∧ 0 < 64 ∧ 63 < 64 := by decide

theorem witness_SbxSubstitutesOneGroup :
    keyed.err = none ∧ 0 ≤ 15 ∧ 15 ≤ 15 ∧ 3 < 4 ∧ 63 < 64 ∧ 59 / 4 ≠ 15 ∧ 15 < 16 := by decide

theorem witness_SblSubstitutesAllGroups : keyed.err = none ∧ 0 ≤ 15 ∧ 15 ≤ 15 ∧ 3 < 4 ∧ 63 < 64 := by decide

theorem witness_SblIsSbxInAnyOrder :
    keyed.err = none ∧ ((List.range 16).reverse).Perm (List.range 16) ∧ 63 < 64 ∧ 15 < 16 :=
  ⟨by decide, List.reverse_perm _, by decide, by decide⟩

theorem witness_AkMixesOneBlock :
    (keyed.err = none ∧ 0 ≤ keyed.rounds.toNat ∧ 2 ≤ keyed.rounds.toNat ∧ keyed.kvalid = true ∧ 63 < 64) ∧
      keyed.rounds.toNat < 3 ∧
      (State.reset.err = none ∧ 0 ≤ State.reset.rounds.toNat ∧ State.reset.kvalid = false) := by decide

theorem witness_PlMovesLanes : keyed.err = none ∧ 15 < 16 ∧ 3 < 4 ∧ 0 < 64 ∧ 63 < 64 := by decide

theorem witness_PermutationLaws :
    keyed.err = none ∧ 15 < 16 ∧ 3 < 4 ∧ 0 ≤ 62 ∧ 62 ≤ 62 ∧ 63 < 64 ∧ permIndex 21 = permIndex 21 := by decide

theorem witness_RndIsOneRound :
    (keyed.err = none ∧ 0 ≤ keyed.rounds.toNat ∧ 2 ≤ keyed.rounds.toNat ∧ keyed.kvalid = true ∧ 63 < 64) ∧
      keyed.rounds.toNat < 3 ∧
      (State.reset.err = none ∧ 0 ≤ State.reset.rounds.toNat ∧ State.reset.kvalid = false) := by decide

theorem witness_EncIsAllRounds :
    keyed.err = none ∧ keyed.kvalid = true ∧ State.reset.err = none ∧ State.reset.kvalid = false := by decide

theorem witness_EncWithZeroRounds :
    (fun s : State => s.rounds = 0 ∧ s.err = none ∧ s.kvalid = true) { State.reset with kvalid := true, K := [(3, 5)] } ∧
      0 < 64 ∧ 63 < 64 := by decide

/-- Instance 0 is the same in both units; the other instances and their keys differ. -/
theorem witness_EncRefinesOrdinaryCipher :
    ∃ s s' t t' : State, s.S ≠ s'.S ∧ s.K ≠ s'.K ∧ 0 < 64 ∧ s.err = none ∧ s'.err = none ∧ s.kvalid = true ∧
      s'.kvalid = true ∧ s.rounds = s'.rounds ∧ row s.S 0 = row s'.S 0 ∧
      (∀ r, r ≤ s.rounds.toNat → keyRow s.K r 0 = keyRow s'.K r 0) ∧ exec .enc s = .next t ∧ exec .enc s' = .next t' :=
  ⟨{ State.reset with kvalid := true, S := setLane zeroLanes 0 2 }, { State.reset with kvalid := true, K := [(0, 2)] }, _, _,
    by decide, by decide, by decide, rfl, rfl, rfl, rfl, rfl, by decide, by decide, rfl, rfl⟩

/-- The two units agree in bit 0 of every word, and differ in bit 1 of lane 0. -/
theorem witness_LaneParallelCommands :
    isPipeline .enc = true ∧ 63 ≤ 63 ∧ ∃ s s' t t' : State, s.S ≠ s'.S ∧ 0 < 64 ∧ s.err = none ∧ s'.err = none ∧
      s.rounds = s'.rounds ∧ s.kvalid = s'.kvalid ∧
      (∀ n, n < 64 → readsLane .enc n = true → (lane s.S n).getLsbD 0 = (lane s'.S n).getLsbD 0) ∧
      (∀ r n, usesBlock .enc s.rounds.toNat r = true → n < 64 →
        (memRead s.K (64 * r + n)).getLsbD 0 = (memRead s'.K (64 * r + n)).getLsbD 0) ∧
      exec .enc s = .next t ∧ exec .enc s' = .next t' ∧ writesLane .enc 63 = true :=
  ⟨rfl, by decide, keyed, { keyed with S := setLane zeroLanes 0 2 }, _, _, by decide, by decide, rfl, rfl, rfl, rfl,
    by decide, fun _ _ _ _ => rfl, rfl, rfl, rfl⟩

/-- A command that changes `T`. -/
theorem witness_LaneParallelCommands_scratch :
    ∃ t : State, exec .pl { keyed with S := countingLanes } = .next t ∧ t.T ≠ keyed.T := ⟨_, rfl, by decide +kernel⟩

/-- The two units differ in `T`, in `KEYMODE` and in a key word of a block above `ROUNDS`. -/
theorem witness_PipelineIsFunctionOfStateAndKey :
    (∃ s s' t t' : State, s.T ≠ s'.T ∧ s.keymode ≠ s'.keymode ∧ s.K ≠ s'.K ∧ isPipeline .enc = true ∧ s.err = none ∧
      s'.err = none ∧ s.kvalid = s'.kvalid ∧ s.rounds = s'.rounds ∧ s.S = s'.S ∧
      (∀ r n, usesBlock .enc s.rounds.toNat r = true → n < 64 → memRead s.K (64 * r + n) = memRead s'.K (64 * r + n)) ∧
      exec .enc s = .next t ∧ exec .enc s' = .next t') ∧
    ∃ t, exec .enc keyed = .next t ∧ t.resp = some .ok :=
  ⟨⟨{ State.reset with kvalid := true },
      { State.reset with kvalid := true, T := countingLanes, keymode := .constant, K := [(64, 1)] }, _, _, by decide,
      by decide, by decide, rfl, rfl, rfl, rfl, rfl, rfl,
      fun r n hr hn => by
        have h0 : r = 0 := by simpa [usesBlock, State.reset] using hr
        subst h0
        revert n
        decide, rfl, rfl⟩,
    _, rfl, rfl⟩

theorem witness_KgenFillsKeyBlocks :
    (keyed.err = none ∧ keyed.keymode = .independent ∧ 191 < 64 * (keyed.rounds.toNat + 1) ∧
      64 * (keyed.rounds.toNat + 1) ≤ 192) ∧
    (fun s : State => s.err = none ∧ s.keymode = .constant ∧ 2 ≤ s.rounds.toNat ∧ 63 < 64 ∧
      64 * (s.rounds.toNat + 1) ≤ 192) { keyed with keymode := .constant } := by decide

theorem witness_OnlyKgenWritesKey :
    (∃ t, Instr.enc ≠ .kgen ∧ exec .enc keyed = .next t) ∧ (∃ t, usesKey .sbl = false ∧ exec .sbl keyed = .next t) ∧
      ∃ t, usesKey .kgen = false ∧ exec .kgen keyed = .next t ∧ t.resp = some .ok ∧ 191 < 64 * (keyed.rounds.toNat + 1) :=
  ⟨⟨_, by decide, rfl⟩, ⟨_, rfl, rfl⟩, _, rfl, rfl, rfl, by decide⟩

/-- The count is the current one. -/
theorem witness_SetrInvalidatesKey :
    ∃ t, exec (.setr 2) keyed = .next t ∧ t.resp = some .ok ∧ 0 ≤ 2 ∧ 2 ≤ 2 ∧ 63 ≤ 63 ∧
      ∃ u, (∀ x ∈ [Instr.setm 1, .nop], x ≠ .kgen) ∧ execList [.setm 1, .nop] t = .next u ∧ usesKey (.ak 2) = true :=
  ⟨_, rfl, rfl, by decide, by decide, by decide, _, by decide, rfl, rfl⟩

theorem witness_OrderOfChecks :
    decode 0x02000000 = .error .unlistedOp ∧ decode 0x00000001 = .error .reservedField ∧ decode 0x35000000 = .ok .enc ∧
      Instr.enc ≠ .rst ∧ (∀ c, Instr.enc ≠ .rdc c) ∧
      (keyed.err = none ∧ operandCheck (.ak 3) keyed = some .badIndex ∧ operandCheck (.setr 32) keyed = some .badConfig) ∧
      (State.reset.err = none ∧ operandCheck (.ak 0) State.reset = none ∧ usesKey (.ak 0) = true ∧
        State.reset.kvalid = false) ∧
      (operandCheck (.ak 2) keyed = none ∧ keyed.kvalid = true) :=
  ⟨by decide, by decide, by decide, by decide, fun _ => (fun h => by cases h), by decide, by decide, by decide⟩

theorem witness_FaultedUnitIsStopped :
    stoppedNext.err = some .keyInvalid ∧ (∀ x ∈ stoppedNext.pending.take 2, servedWhileFaulted x = false) ∧ 0 < 2 ∧
      stoppedNext.pending ≠ [] := by decide

theorem witness_FirstFaultStaysLatched :
    ∃ t, stoppedNext.err = some .keyInvalid ∧ step stoppedNext = .next t := ⟨_, rfl, rfl⟩

theorem witness_FailureIsNeverHidden :
    (∀ x ∈ encNext.pending.take 1, resets x = false) ∧ (stepOf encNext).err = none := ⟨by decide, rfl⟩

theorem witness_CapIsConstant : (∃ t, step encNext = .next t) ∧ State.reset.maxRounds = 31 := ⟨⟨_, rfl⟩, rfl⟩

/-- `SETR 1`, `SETM 1`, `KGEN` and `SETR 2` presented to units of which they change the field. -/
theorem witness_ControlFieldWriters :
    (ran 0x18010000 0 keyed).rounds ≠ keyed.rounds ∧ (ran 0x19010000 0 keyed).keymode ≠ keyed.keymode ∧
      (State.reset.kvalid = false ∧ (ran 0x40000000 0 State.reset).kvalid = true) ∧
      (keyed.kvalid = true ∧ (ran 0x18020000 0 keyed).kvalid = false) := ⟨by decide, by decide, ⟨rfl, rfl⟩, ⟨rfl, rfl⟩⟩

/-- `SBX 15` does not write lane 59, and reads lanes 60 to 63 only. -/
theorem witness_LaneRegisterTable :
    ∃ t t', exec (.sbx 15) keyed = .next t ∧ 59 < 64 ∧ writesLane (.sbx 15) 59 = false ∧ writesLane (.sbx 15) 60 = true ∧
      (∀ j, j < 64 → readsLane (.sbx 15) j = true → lane (setLane zeroLanes 59 1) j = lane keyed.S j) ∧
      exec (.sbx 15) { keyed with S := setLane zeroLanes 59 1 } = .next t' ∧ t.resp = some .ok :=
  ⟨_, _, rfl, by decide, by decide, by decide, by decide, rfl, rfl⟩

theorem witness_DataWordsOfCommands :
    (∃ t, (∀ n, Instr.enc ≠ .wrs n) ∧ exec .enc keyed = .next t) ∧
      (∃ t, exec (.rds 5) keyed = .next t ∧ t.resp = some (.data 0)) ∧
      ∃ t, exec (.rds 64) keyed = .next t ∧ t.err ≠ none :=
  ⟨⟨_, fun _ => (fun h => by cases h), rfl⟩, ⟨_, rfl, rfl⟩, _, rfl, fun h => by cases h⟩

theorem witness_ScratchIsNeverObserved :
    ∃ t t', exec .trn { keyed with S := countingLanes } = .next t ∧ t.T ≠ keyed.T ∧
      exec .trn { keyed with S := countingLanes, T := countingLanes } = .next t' := ⟨_, _, rfl, by decide +kernel, rfl⟩

/-- A word of block 3 differs while `ROUNDS = 2`; and every word differs while no key is present. -/
theorem witness_UnreachableKeyIsNeverObserved :
    SameButUnreachableKey { keyed with K := [] } { keyed with K := [(192, 5)] } ∧
      SameButUnreachableKey State.reset { State.reset with K := countingKey } :=
  ⟨⟨rfl, fun _ => by decide +kernel⟩, rfl, fun h => by cases h⟩

theorem witness_RstIsOneHardReset : UnitInv { stopped with K := [(2047, 1)] } :=
  ⟨by decide, by decide, by decide, fun _ h => by cases h⟩

/-- The start of a unit with nothing presented and no random word ready. -/
def emptyStart : UnitStart := ⟨countingLanes, zeroLanes, [7], [], []⟩

theorem witness_SystemStartsFromReset :
    (emptyStart :: [emptyStart])[1]? = some emptyStart ∧
      ∃ s, (systemAtReset 0 emptyStart [emptyStart])[1]? = some s ∧ 0 < keySize s ∧ 63 < keySize s :=
  ⟨rfl, _, rfl, by decide, by decide⟩

/-- Two units, one of them stopped; the first steps. -/
theorem witness_StepKeepsSystemInvariant : SystemInv [encNext, { stopped with source := 1 }] where
  at_least_one := by simp
  alike := by
    intro s hs s' hs'
    rcases List.mem_pair.1 hs with rfl | rfl <;> rcases List.mem_pair.1 hs' with rfl | rfl <;> rfl
  own_source := by decide
  units := by
    intro s hs
    rcases List.mem_pair.1 hs with rfl | rfl
    · exact ⟨by decide, by decide, by decide, fun _ h => by cases h⟩
    · exact ⟨by decide, by decide, by decide, fun _ h => by cases h⟩

theorem witness_UnitsAreIndependent : ([1, 0, 1, 2] : List Nat).Perm [0, 1, 2, 1] := by decide

end Sys2Proof.Tests
end

section
/-! PROOF. The family 00_scope.md. Each data-path command acts on every row of the lane register file alone (the row
view of 00_scope.md R13), and that is what makes it lane-parallel (R10). -/

namespace Sys2Proof.Proofs

open Sys2Proof.Machine

/-! ## The row view of the data path -/

/-- Two Lane-States have the same row `j` exactly when bit `j` of every lane agrees. -/
theorem row_eq_row_iff {L M : Lanes} {j : Nat} :
    row L j = row M j ↔ ∀ n, n < 64 → (lane L n).getLsbD j = (lane M n).getLsbD j := by
  constructor
  · intro h n hn
    rw [← getLsbD_row L j hn, h, getLsbD_row M j hn]
  · exact fun h => wordOf_congr h

theorem keyRow_congr {m m' : Memory} {r j : Nat}
    (h : ∀ n, n < 64 → (memRead m (64 * r + n)).getLsbD j = (memRead m' (64 * r + n)).getLsbD j) :
    keyRow m r j = keyRow m' r j := wordOf_congr h

/-- 42_round_function.md R140: key mixing acts on every row with that instance's own round key. -/
theorem row_mixKey (r : Nat) (s : State) (j : Nat) : row (mixKey r s).S j = row s.S j ^^^ keyRow s.K r j :=
  word_ext fun i hi => by simp [row, keyRow, hi]

/-- 42_round_function.md R143: moving the lanes moves the bits of every row alike. -/
theorem row_permLanes (L : Lanes) (j : Nat) : row (permLanes L) j = permBits (row L j) :=
  word_ext fun i hi => by
    have hsrc : 4 * (i % 16) + i / 16 < 64 := by omega
    simp [row, lane_permLanes, permBits, hi, hsrc]

/-- 41_sbox.md R121, R123: the S-box over whole words is the table at every bit position. -/
theorem getLsbD_quadAt_sbox (x : Quad) {j b : Nat} (hj : j < 64) (hb : b < 4) :
    (quadAt (sbox x) b).getLsbD j = (sboxEntry (quadValue x j)).getLsbD b := by
  have hones : BitVec.getLsbD ones j = true := getLsbD_ones hj
  obtain rfl | rfl | rfl | rfl : b = 0 ∨ b = 1 ∨ b = 2 ∨ b = 3 := by omega
  all_goals
    simp only [quadAt, sbox, quadValue, BitVec.getLsbD_xor, BitVec.getLsbD_and, hones]
    generalize x.w0.getLsbD j = a0, x.w1.getLsbD j = a1, x.w2.getLsbD j = a2, x.w3.getLsbD j = a3
    revert a0 a1 a2 a3
    decide

/-- 41_sbox.md R122: nibble `k` of a row is the value of group `k` at that bit position. -/
theorem nibble_row (L : Lanes) (j : Nat) {k : Nat} (hk : k < 16) : nibble (row L j) k = quadValue (groupQuad L k) j := by
  refine BitVec.eq_of_getLsbD_eq fun b hb => ?_
  have hlane : 4 * k + b < 64 := by omega
  rw [getLsbD_quadValue _ _ hb, quadAt_groupQuad L k hb, ← getLsbD_row L j hlane]
  simp [nibble, hb]

/-- 41_sbox.md R126: the S-box layer substitutes every nibble of every row. -/
theorem row_sboxAll (L : Lanes) {j : Nat} (hj : j < 64) : row (sboxAll L) j = subNibbles (row L j) :=
  word_ext fun i hi => by
    rw [getLsbD_row _ _ hi, lane_sboxAll L hi, getLsbD_quadAt_sbox _ hj (by omega), ← nibble_row L j (by omega)]
    simp [subNibbles, hi]

/-- 42_round_function.md R146: a round of the pipeline is one round of the ordinary cipher on every row. -/
theorem row_roundWith (r : Nat) (s : State) {j : Nat} (hj : j < 64) :
    row (roundWith r s).S j = rowRound (keyRow s.K r j) (row s.S j) := by
  rw [roundWith_S, row_permLanes, row_sboxAll _ hj, row_mixKey, rowRound]

theorem roundsUpTo_K (n : Nat) (s : State) : (roundsUpTo n s).K = s.K := by rw [roundsUpTo_frame]

theorem row_roundsUpTo (n : Nat) (s : State) {j : Nat} (hj : j < 64) :
    row (roundsUpTo n s).S j = rowRounds (fun r => keyRow s.K r j) n (row s.S j) := by
  induction n with
  | zero => rfl
  | succ n ih => rw [roundsUpTo, row_roundWith n _ hj, roundsUpTo_K, ih, rowRounds]

/-- 42_round_function.md R153: an encryption is the ordinary cipher on every row. -/
theorem row_encrypt (s : State) {j : Nat} (hj : j < 64) :
    row (encrypt s).S j = rowEncrypt (fun r => keyRow s.K r j) s.rounds.toNat (row s.S j) := by
  rw [encrypt, row_mixKey, roundsUpTo_K, row_roundsUpTo _ s hj, rowEncrypt]

/-- The first `n` rounds use no round key but those below `n`. -/
theorem rowRounds_congr {key key' : Nat → Word} {n : Nat} (h : ∀ r, r < n → key r = key' r) (x : Word) :
    rowRounds key n x = rowRounds key' n x := by
  induction n with
  | zero => rfl
  | succ n ih => rw [rowRounds, rowRounds, h n (by omega), ih fun r hr => h r (by omega)]

/-- The ordinary cipher of `n` rounds uses no round key but `0 .. n`. -/
theorem rowEncrypt_congr {key key' : Nat → Word} {n : Nat} (h : ∀ r, r ≤ n → key r = key' r) (x : Word) :
    rowEncrypt key n x = rowEncrypt key' n x := by
  rw [rowEncrypt, rowEncrypt, h n le_rfl, rowRounds_congr fun r hr => h r (by omega)]

/-- The scratch buffer holds the lanes after at least one round (42_round_function.md R144). -/
theorem roundsUpTo_T {n : Nat} (hn : n ≠ 0) (s : State) : (roundsUpTo n s).T = (roundsUpTo n s).S := by
  cases n with
  | zero => exact absurd rfl hn
  | succ n => rfl

/-! ## Lane-parallel commands -/

/-- What a lane-parallel command may look at for bit position `j`, the same in two units: `ROUNDS`, and bit `j` of the
lanes and the key words it reads (00_scope.md R10). -/
structure SameInputs (i : Instr) (j : Nat) (s s' : State) : Prop where
  rounds : s.rounds = s'.rounds
  lanes : ∀ n, n < 64 → readsLane i n = true → (lane s.S n).getLsbD j = (lane s'.S n).getLsbD j
  keys : ∀ r n, usesBlock i s.rounds.toNat r = true → n < 64 →
    (memRead s.K (64 * r + n)).getLsbD j = (memRead s'.K (64 * r + n)).getLsbD j

theorem SameInputs.keyRow_eq {i : Instr} {j r : Nat} {s s' : State} (h : SameInputs i j s s')
    (hr : usesBlock i s.rounds.toNat r = true) : keyRow s.K r j = keyRow s'.K r j :=
  keyRow_congr fun n hn => h.keys r n hr hn

theorem SameInputs.row_eq {i : Instr} {j : Nat} {s s' : State} (h : SameInputs i j s s')
    (hall : ∀ n, readsLane i n = true) : row s.S j = row s'.S j :=
  row_eq_row_iff.2 fun n hn => h.lanes n hn (hall n)

section GatedCommands

variable {i : Instr} {check : State → Option FaultCode} {effect : State → State}
  (hexec : ∀ s, exec i s = gated (check s) .ok (effect s) s)
  (hcheck : ∀ s s', s.rounds = s'.rounds → s.kvalid = s'.kvalid → check s = check s')
include hexec hcheck

/-- A gated command whose check looks at `ROUNDS` and `KVALID` alone is lane-parallel when it writes no lane it does not
read and its effect is lane-parallel. Both units take the same way: with a fault the lanes are those read, and `T` is as
it was. -/
theorem laneParallel_of_gated (hreads : ∀ n, writesLane i n = true → readsLane i n = true)
    (hS : ∀ s s' j, j < 64 → SameInputs i j s s' → ∀ n, n < 64 → writesLane i n = true →
      (lane (effect s).S n).getLsbD j = (lane (effect s').S n).getLsbD j)
    (hT : ∀ s s' j, j < 64 → SameInputs i j s s' → (effect s).T ≠ s.T → row (effect s).T j = row (effect s').T j) :
    LaneParallel i := by
  intro s s' t t' j hj hs hs' hrounds hkvalid hlanes hkeys ht ht'
  have same : SameInputs i j s s' := ⟨hrounds, hlanes, hkeys⟩
  rw [hexec] at ht ht'
  rw [← hcheck s s' hrounds hkvalid] at ht'
  cases hc : check s with
  | some f =>
    rw [hc, gated_raise hs] at ht
    rw [hc, gated_raise hs'] at ht'
    cases ht
    cases ht'
    exact ⟨fun n hn hw => hlanes n hn (hreads n hw), fun hne => absurd rfl hne⟩
  | none =>
    rw [hc, gated_done hs] at ht
    rw [hc, gated_done hs'] at ht'
    cases ht
    cases ht'
    exact ⟨hS s s' j hj same, fun hne => row_eq_row_iff.1 (hT s s' j hj same hne)⟩

/-- For a command that reads every lane it is enough to compare row `j` of what it writes. -/
theorem laneParallel_of_rows (hreads : ∀ n, readsLane i n = true)
    (hS : ∀ s s' j, j < 64 → SameInputs i j s s' → row (effect s).S j = row (effect s').S j)
    (hT : ∀ s s' j, j < 64 → SameInputs i j s s' → (effect s).T ≠ s.T → row (effect s).T j = row (effect s').T j) :
    LaneParallel i :=
  laneParallel_of_gated hexec hcheck (fun n _ => hreads n)
    (fun s s' j hj same n hn _ => row_eq_row_iff.1 (hS s s' j hj same) n hn) hT

end GatedCommands

theorem blockFault_keyFault_congr (r : Nat) (s s' : State) (hr : s.rounds = s'.rounds) (hk : s.kvalid = s'.kvalid) :
    firstFault (blockFault r s) (keyFault s) = firstFault (blockFault r s') (keyFault s') := by
  simp [blockFault, keyFault, hr, hk]

/-- The value of a group at bit position `j` depends on bit `j` of its four lanes alone. -/
theorem quadValue_groupQuad_congr {L M : Lanes} {k j : Nat} (hk : k < 16)
    (h : ∀ n, n < 64 → n / 4 = k → (lane L n).getLsbD j = (lane M n).getLsbD j) :
    quadValue (groupQuad L k) j = quadValue (groupQuad M k) j := by
  refine BitVec.eq_of_getLsbD_eq fun b hb => ?_
  rw [getLsbD_quadValue _ _ hb, getLsbD_quadValue _ _ hb, quadAt_groupQuad L k hb, quadAt_groupQuad M k hb]
  exact h _ (by omega) (by omega)

theorem laneParallel_sbx (k : Nat) : LaneParallel (.sbx k) := by
  refine laneParallel_of_gated (exec_sbx k) (fun _ _ _ _ => rfl) (fun _ hw => hw) ?_ ?_
  · intro s s' j hj same n hn hw
    have hk : n / 4 = k := of_decide_eq_true hw
    have hgroup : quadValue (groupQuad s.S k) j = quadValue (groupQuad s'.S k) j :=
      quadValue_groupQuad_congr (by omega) fun m hm hmk => same.lanes m hm (decide_eq_true hmk)
    rw [lane_sboxGroup k s.S hn, lane_sboxGroup k s'.S hn, if_pos hk, if_pos hk,
      getLsbD_quadAt_sbox _ hj (by omega), getLsbD_quadAt_sbox _ hj (by omega), hgroup]
  · exact fun s s' j _ _ hne => absurd rfl hne

theorem laneParallel_sbl : LaneParallel .sbl := by
  refine laneParallel_of_rows exec_sbl (fun _ _ _ _ => rfl) (fun _ => rfl) ?_ ?_
  · intro s s' j hj same
    rw [sboxLayer_S, sboxLayer_S, row_sboxAll _ hj, row_sboxAll _ hj, same.row_eq fun _ => rfl]
  · exact fun s s' j _ _ hne => absurd rfl hne

theorem laneParallel_pl : LaneParallel .pl := by
  have hrow : ∀ s s' j, j < 64 → SameInputs .pl j s s' → row (permLanes s.S) j = row (permLanes s'.S) j := by
    intro s s' j _ same
    rw [row_permLanes, row_permLanes, same.row_eq fun _ => rfl]
  exact laneParallel_of_rows exec_pl (fun _ _ _ _ => rfl) (fun _ => rfl) hrow
    fun s s' j hj same _ => hrow s s' j hj same

theorem laneParallel_ak (r : Nat) : LaneParallel (.ak r) := by
  refine laneParallel_of_rows (exec_ak r) (blockFault_keyFault_congr r) (fun _ => rfl) ?_ ?_
  · intro s s' j _ same
    rw [row_mixKey, row_mixKey, same.row_eq fun _ => rfl, same.keyRow_eq (decide_eq_true rfl)]
  · exact fun s s' j _ _ hne => absurd rfl hne

theorem laneParallel_rnd (r : Nat) : LaneParallel (.rnd r) := by
  have hrow : ∀ s s' j, j < 64 → SameInputs (.rnd r) j s s' →
      row (roundWith r s).S j = row (roundWith r s').S j := by
    intro s s' j hj same
    rw [row_roundWith r s hj, row_roundWith r s' hj, same.row_eq fun _ => rfl, same.keyRow_eq (decide_eq_true rfl)]
  exact laneParallel_of_rows (exec_rnd r) (blockFault_keyFault_congr r) (fun _ => rfl) hrow
    fun s s' j hj same _ => hrow s s' j hj same

/-- `T` is left with the lanes before the last key mixing, unless there is no round and it is as it was. -/
theorem laneParallel_enc : LaneParallel .enc := by
  have hkey : ∀ {s s' j}, SameInputs .enc j s s' → ∀ r, r ≤ s.rounds.toNat → keyRow s.K r j = keyRow s'.K r j :=
    fun same r hr => same.keyRow_eq (decide_eq_true hr)
  refine laneParallel_of_rows exec_enc (fun s s' _ hk => by simp [keyFault, hk]) (fun _ => rfl) ?_ ?_
  · intro s s' j hj same
    rw [row_encrypt s hj, row_encrypt s' hj, ← same.rounds, ← same.row_eq fun _ => rfl]
    exact rowEncrypt_congr (hkey same) _
  · intro s s' j hj same hne
    have hn : s.rounds.toNat ≠ 0 := fun h0 => hne (by rw [encrypt, h0]; rfl)
    rw [encrypt, encrypt, mixKey_T, mixKey_T, ← same.rounds, roundsUpTo_T hn, roundsUpTo_T hn,
      row_roundsUpTo _ s hj, row_roundsUpTo _ s' hj, ← same.row_eq fun _ => rfl]
    exact rowRounds_congr (fun r hr => hkey same r hr.le) _

/-- The six data-path commands are lane-parallel (00_scope.md R10). -/
theorem laneParallel_of_isPipeline {i : Instr} (h : isPipeline i = true) : LaneParallel i := by
  cases i with
  | sbx k => exact laneParallel_sbx k
  | sbl => exact laneParallel_sbl
  | pl => exact laneParallel_pl
  | ak r => exact laneParallel_ak r
  | rnd r => exact laneParallel_rnd r
  | enc => exact laneParallel_enc
  | _ => cases h

/-! ## `TRN` and `MIR` are not lane-parallel -/

/-- A unit at reset with these lanes. -/
def unitWith (L : Lanes) : State := { State.reset with S := L }

/-- The lanes of which only bit 0 of lane `i` is set. -/
def oneBitLanes (i : Nat) : Lanes := setLane zeroLanes i 1

/-- Setting bit 0 of one lane is seen at no other bit position. -/
theorem getLsbD_oneBitLanes (i n : Nat) {j : Nat} (hj : j ≠ 0) :
    (lane (oneBitLanes i) n).getLsbD j = (lane zeroLanes n).getLsbD j := by
  rw [oneBitLanes, lane_setLane]
  split <;> simp [hj]

/-- A command is not lane-parallel when bit 0 of lane `src` decides a bit it writes at another position. -/
theorem not_laneParallel_of_move {i : Instr} {src d j : Nat} {t t' : State} (hj : j < 64) (hj0 : j ≠ 0) (hd : d < 64)
    (hw : writesLane i d = true) (ht : exec i (unitWith (oneBitLanes src)) = .next t)
    (ht' : exec i (unitWith zeroLanes) = .next t')
    (hone : (lane t.S d).getLsbD j = true) (hzero : (lane t'.S d).getLsbD j = false) : ¬ LaneParallel i := by
  intro h
  obtain ⟨hsame, -⟩ := h (unitWith (oneBitLanes src)) (unitWith zeroLanes) t t' j hj rfl rfl rfl rfl
    (fun n _ _ => getLsbD_oneBitLanes src n hj0) (fun _ _ _ _ => rfl) ht ht'
  simp [hsame d hd hw, hzero] at hone

/-- Bit 0 of lane 1 goes to bit 1 of lane 0. -/
theorem not_laneParallel_trn : ¬ LaneParallel .trn := by
  have hexec (L : Lanes) := (exec_trn (unitWith L)).trans (gated_done rfl ..)
  refine not_laneParallel_of_move (src := 1) (d := 0) (j := 1) (by decide) (by decide) (by decide) rfl (hexec _)
    (hexec _) ?_ ?_
  · simp [unitWith, lane_transpose, row, oneBitLanes, lane_setLane]
  · simp [unitWith, lane_transpose, row]

/-- `MIR` with legal operands on a unit with no fault latched. -/
theorem exec_mir_legal {d src : Nat} {s : State} (hd : d ≤ 63) (hsrc : src ≤ 63) (hs : s.err = none) :
    exec (.mir d src) s = .next (respond .ok { s with S := setLane s.S d (mirror (lane s.S src)) }) := by
  have hlegal : firstFault (laneFault d) (laneFault src) = none := by simp [laneFault, hd, hsrc]
  rw [exec_mir, hlegal, gated_done hs]

/-- Bit 0 of the source goes to bit 63 of the destination, which may be the same lane. -/
theorem not_laneParallel_mir {d src : Nat} (hd : d ≤ 63) (hsrc : src ≤ 63) : ¬ LaneParallel (.mir d src) := by
  have hd' : d < 64 := by omega
  refine not_laneParallel_of_move (src := src) (d := d) (j := 63) (by decide) (by decide) hd' (decide_eq_true rfl)
    (exec_mir_legal hd hsrc rfl) (exec_mir_legal hd hsrc rfl) ?_ ?_
  · simp [unitWith, oneBitLanes, lane_setLane, mirror, hd', show src < 64 by omega]
  · simp [unitWith, lane_setLane, mirror, hd']

/-- Settles O35, by the row view: every data-path command acts on each row alone, while `TRN` and `MIR` move a bit to
another bit position. -/
theorem laneParallelCommands : Obligations.LaneParallelCommands :=
  ⟨fun _ h => laneParallel_of_isPipeline h, not_laneParallel_trn, fun _ _ => not_laneParallel_mir⟩

end Sys2Proof.Proofs
end

section
/-! PROOF. The family 10_state.md. What a step takes from the state and what it leaves: two units that differ only in
what no command observes go the same way (10_state.md R21, R24, R26, R27), and `CAP` never changes (R33). -/

namespace Sys2Proof.Proofs

open Sys2Proof.Machine

/-! ## A command by its check, its answer and its effect -/

/-- The first fault of a command's operand and state checks (60_exceptions.md R227). -/
def checkOf (i : Instr) (s : State) : Option FaultCode :=
  match i with
  | .wrs n | .rds n => laneFault n
  | .rdk r n => firstFault (firstFault (blockFault r s) (laneFault n)) (keyFault s)
  | .setr n => roundsFault n s
  | .setm m => modeFault m
  | .rdc c => regFault c
  | .mir d src => firstFault (laneFault d) (laneFault src)
  | .sbx k => groupFault k
  | .ak r | .rnd r => firstFault (blockFault r s) (keyFault s)
  | .enc => keyFault s
  | _ => none

/-- What a command answers when it completes. -/
def answerOf (i : Instr) (s : State) : Response :=
  match i with
  | .rds n => .data (lane s.S n)
  | .rdk r n => .data (keyWord s.K r n)
  | .rdc c => .data (controlReg c s)
  | _ => .ok

/-- What a command does to the state when it completes, but for the response. -/
def effectOf (i : Instr) (s : State) : State :=
  match i with
  | .rst => softReset s
  | .wrs n => { s with S := setLane s.S n s.din }
  | .setr n => { s with rounds := BitVec.ofNat 8 n, kvalid := false }
  | .setm m => { s with keymode := modeOf m }
  | .mir d src => { s with S := setLane s.S d (mirror (lane s.S src)) }
  | .trn => { s with T := transpose s.S, S := transpose s.S }
  | .sbx k => { s with S := sboxGroup k s.S }
  | .sbl => sboxLayer s
  | .pl => permLayer s
  | .ak r => mixKey r s
  | .rnd r => roundWith r s
  | .enc => encrypt s
  | .kgen => generateKeys s
  | _ => s

/-- Every command but `RST` and `RDC` goes through the fault gate and its check (60_exceptions.md R227, R230). -/
theorem exec_gated_or_served (i : Instr) :
    i = .rst ∨ (∃ c, i = .rdc c) ∨ ∀ s, exec i s = gated (checkOf i s) (answerOf i s) (effectOf i s) s := by
  cases i with
  | rst => exact .inl rfl
  | rdc c => exact .inr (.inl ⟨c, rfl⟩)
  | _ => exact .inr (.inr fun _ => rfl)

/-- Two units with the same latched code and the same check go the same way, whichever command it is: their end states are
related when their stops and their completions are. -/
theorem exec_related {i : Instr} {s s' t : State} (R : State → State → Prop) (h : exec i s = .next t)
    (herr : s'.err = s.err) (hcheck : checkOf i s' = checkOf i s)
    (done : checkOf i s = none → R (respond (answerOf i s) (effectOf i s)) (respond (answerOf i s') (effectOf i s')))
    (stopped : ∀ err code,
      R { s with err := err, resp := some (.err code) } { s' with err := err, resp := some (.err code) }) :
    ∃ t', exec i s' = .next t' ∧ R t t' := by
  rcases exec_gated_or_served i with rfl | ⟨c, rfl⟩ | hgated
  · cases h
    exact ⟨_, rfl, done rfl⟩
  · rcases Nat.lt_or_ge 3 c with hc | hc
    · rw [exec_rdc_out c s hc] at h
      cases h
      exact ⟨_, exec_rdc_out c s' hc, by simpa [raise, herr] using stopped (some (s.err.getD .badIndex)) _⟩
    · rw [exec_rdc_in c s hc] at h
      cases h
      exact ⟨_, exec_rdc_in c s' hc, done (by simpa [checkOf, regFault] using hc)⟩
  · rw [hgated] at h ⊢
    exact gated_related R h herr hcheck (fun _ => done) stopped

/-- The two ways a command ends: it stops with a code and changes nothing else, or it passes its check and completes with
its effect and its answer. -/
def StopsOrCompletes (i : Instr) (s t : State) : Prop :=
  (∃ err code, t = { s with err := err, resp := some (.err code) }) ∨
  (checkOf i s = none ∧ t = respond (answerOf i s) (effectOf i s))

theorem exec_stopsOrCompletes {i : Instr} {s t : State} (h : exec i s = .next t) : StopsOrCompletes i s t := by
  obtain ⟨t', ht', hends⟩ := exec_related (fun _ t => StopsOrCompletes i s t) h rfl rfl
    (fun hcheck => .inr ⟨hcheck, rfl⟩) (fun err code => .inl ⟨err, code, rfl⟩)
  cases h.symm.trans ht'
  exact hends

theorem exec_next (i : Instr) (s : State) : ∃ t, exec i s = .next t := by
  rcases exec_gated_or_served i with rfl | ⟨c, rfl⟩ | hgated
  · exact ⟨_, exec_rst s⟩
  · rcases Nat.lt_or_ge 3 c with hc | hc
    · exact ⟨_, exec_rdc_out c s hc⟩
    · exact ⟨_, exec_rdc_in c s hc⟩
  · rw [hgated]
    exact gated_next ..

/-- No check looks at a lane, at the scratch buffer or at a key word. -/
theorem checkOf_contents (i : Instr) (s : State) (L scratch : Lanes) (m : Memory) :
    checkOf i { s with S := L, T := scratch, K := m } = checkOf i s := by cases i <;> rfl

/-- The effect of `KGEN` takes nothing from the lanes, the scratch buffer and the key memory, and leaves all of them as
they were but for the words it writes. -/
theorem generateKeys_contents (s : State) (L scratch : Lanes) (m : Memory) :
    generateKeys { s with S := L, T := scratch, K := m } =
      { generateKeys s with S := L, T := scratch, K := memFill (keyWords s) m } := by
  obtain ⟨hwords, hcount⟩ := keyWords_congr (s := s) (s' := { s with S := L, T := scratch, K := m }) rfl rfl rfl rfl rfl
  rw [generateKeys_spec, generateKeys_spec, hwords, hcount]

/-! ## Steps -/

theorem step_command {s : State} {w : Cmd} {d : Word} {rest : List Input} {i : Instr}
    (h : s.pending = .command w d :: rest) (hw : decode w = .ok i) : step s = exec i (present d rest s) := by
  simp [step, h, runCommand, hw]

theorem step_next (s : State) : ∃ t, step s = .next t := by
  cases hp : s.pending with
  | nil => exact ⟨_, step_idle hp⟩
  | cons x rest =>
    cases x with
    | hardReset lanes scratch ws => exact ⟨_, step_hardReset hp⟩
    | command w d =>
      cases hw : decode w with
      | error e =>
        obtain ⟨t, ht⟩ := gated_next (some .illegalCmd) .ok (present d rest s) (present d rest s)
        exact ⟨t, (step_illegal hp hw).trans ht⟩
      | ok i =>
        obtain ⟨t, ht⟩ := exec_next i (present d rest s)
        exact ⟨t, (step_command hp hw).trans ht⟩

theorem stepOf_of_step {s t : State} (h : step s = .next t) : stepOf s = t := by simp [stepOf, h]

/-- What makes a relation between two units an invariant of their steps: related units are presented the same and have the
same code latched; and taking an input, stopping with a code, a hard reset and every command keep the relation. -/
structure KeptBySteps (R : State → State → Prop) : Prop where
  pending : ∀ {s s'}, R s s' → s'.pending = s.pending
  err : ∀ {s s'}, R s s' → s'.err = s.err
  presented : ∀ {s s'} d rest, R s s' → R (present d rest s) (present d rest s')
  stopped : ∀ {s s'} err code, R s s' →
    R { s with err := err, resp := some (.err code) } { s' with err := err, resp := some (.err code) }
  reset : ∀ {s s'} lanes scratch ws rest, R s s' →
    R (hardReset lanes scratch ws (takeInput rest s)) (hardReset lanes scratch ws (takeInput rest s'))
  command : ∀ {s s' t} i, R s s' → exec i s = .next t → ∃ t', exec i s' = .next t' ∧ R t t'

theorem KeptBySteps.step {R : State → State → Prop} (hR : KeptBySteps R) {s s' t : State} (h : R s s')
    (ht : step s = .next t) : ∃ t', step s' = .next t' ∧ R t t' := by
  have hpending := hR.pending h
  rcases step_cases ht with ⟨hp, rfl⟩ | ⟨lanes, scratch, ws, rest, hp, rfl⟩ | ⟨w, d, rest, e, hp, hw, hi⟩ |
    ⟨w, d, rest, i, hp, hw, hi⟩
  · exact ⟨s', step_idle (hpending.trans hp), h⟩
  · exact ⟨_, step_hardReset (hpending.trans hp), hR.reset lanes scratch ws rest h⟩
  · rw [step_illegal (hpending.trans hp) hw]
    have hpresented := hR.presented d rest h
    exact gated_related R hi (hR.err hpresented) rfl nofun fun err code => hR.stopped err code hpresented
  · rw [step_command (hpending.trans hp) hw]
    exact hR.command i (hR.presented d rest h) hi

theorem KeptBySteps.stepsOf {R : State → State → Prop} (hR : KeptBySteps R) (n : Nat) {s s' : State} (h : R s s') :
    R (stepsOf n s) (stepsOf n s') := by
  induction n generalizing s s' with
  | zero => exact h
  | succ n ih =>
    obtain ⟨t, ht⟩ := step_next s
    obtain ⟨t', ht', hrel⟩ := hR.step h ht
    rw [Machine.stepsOf, Machine.stepsOf, stepOf_of_step ht, stepOf_of_step ht']
    exact ih hrel

/-! ## The scratch buffer (10_state.md R24) -/

/-- The two units differ in `T` alone. -/
def SameButScratch (s s' : State) : Prop := ∃ x, s' = { s with T := x }

/-- The two units differ in `T` alone, and not even there when the first holds another content than `before`. -/
def SameButOldScratch (before : Lanes) (t t' : State) : Prop := ∃ x, t' = { t with T := x } ∧ (t.T ≠ before → x = t.T)

/-- A round writes all of `T`, so only before the first one does `T` hold what it held at the start. -/
theorem roundsUpTo_withScratch (n : Nat) (s : State) (scratch : Lanes) :
    SameButOldScratch s.T (roundsUpTo n s) (roundsUpTo n { s with T := scratch }) := by
  induction n with
  | zero => exact ⟨scratch, rfl, fun hne => absurd rfl hne⟩
  | succ n ih =>
    obtain ⟨x, hx, -⟩ := ih
    exact ⟨(roundsUpTo (n + 1) s).T, by rw [roundsUpTo, hx]; rfl, fun _ => rfl⟩

theorem encrypt_withScratch (s : State) (scratch : Lanes) :
    SameButOldScratch s.T (encrypt s) (encrypt { s with T := scratch }) := by
  obtain ⟨x, hx, hwritten⟩ := roundsUpTo_withScratch s.rounds.toNat s scratch
  exact ⟨x, by rw [encrypt, hx]; rfl, hwritten⟩

theorem answerOf_withScratch (i : Instr) (s : State) (scratch : Lanes) :
    answerOf i { s with T := scratch } = answerOf i s := by cases i <;> rfl

theorem effectOf_withScratch (i : Instr) (s : State) (scratch : Lanes) :
    SameButOldScratch s.T (effectOf i s) (effectOf i { s with T := scratch }) := by
  cases i with
  | rst | trn | pl | rnd => exact ⟨_, rfl, fun _ => rfl⟩
  | enc => exact encrypt_withScratch s scratch
  | kgen =>
    refine ⟨scratch, ?_, fun hne => absurd ?_ hne⟩
    · exact (generateKeys_contents s s.S scratch s.K).trans (by rw [effectOf, generateKeys_spec])
    · rw [effectOf, generateKeys_spec]
  | _ => exact ⟨scratch, rfl, fun hne => absurd rfl hne⟩

/-- A command does the same whatever `T` held, and where it changes `T` the content it leaves is the same too. -/
theorem exec_withScratch {i : Instr} {s t : State} (scratch : Lanes) (h : exec i s = .next t) :
    ∃ t', exec i { s with T := scratch } = .next t' ∧ SameButOldScratch s.T t t' := by
  refine exec_related _ h rfl (checkOf_contents i s s.S scratch s.K) (fun _ => ?_)
    fun _ _ => ⟨scratch, rfl, fun hne => absurd rfl hne⟩
  obtain ⟨x, hx, hwritten⟩ := effectOf_withScratch i s scratch
  exact ⟨x, by rw [answerOf_withScratch, hx]; rfl, hwritten⟩

theorem keptBySteps_sameButScratch : KeptBySteps SameButScratch where
  pending := by rintro s _ ⟨x, rfl⟩; rfl
  err := by rintro s _ ⟨x, rfl⟩; rfl
  presented := by rintro s _ d rest ⟨x, rfl⟩; exact ⟨x, rfl⟩
  stopped := by rintro s _ err code ⟨x, rfl⟩; exact ⟨x, rfl⟩
  reset := by rintro s _ lanes scratch ws rest ⟨x, rfl⟩; exact ⟨scratch, rfl⟩
  command := by
    rintro s _ t i ⟨scratch, rfl⟩ h
    obtain ⟨t', ht', x, hx, -⟩ := exec_withScratch scratch h
    exact ⟨t', ht', x, hx⟩

/-- Settles O48, by the relation "differ in `T` alone", which every step keeps. -/
theorem scratchIsNeverObserved : Obligations.ScratchIsNeverObserved := by
  refine ⟨fun n s scratch => keptBySteps_sameButScratch.stepsOf n ⟨scratch, rfl⟩, ?_⟩
  intro i s t t' scratch h hne h'
  obtain ⟨u, hu, x, rfl, hwritten⟩ := exec_withScratch scratch h
  cases h'.symm.trans hu
  exact hwritten hne

/-! ## The key memory (10_state.md R26, R27) -/

/-- Two key memories hold the same words in the blocks `0 .. q`. -/
def AgreeUpTo (q : Nat) (m m' : Memory) : Prop := ∀ n, n < 64 * (q + 1) → memRead m n = memRead m' n

theorem AgreeUpTo.keyWord_eq {q r i : Nat} {m m' : Memory} (h : AgreeUpTo q m m') (hr : r ≤ q) (hi : i < 64) :
    keyWord m r i = keyWord m' r i := h _ (by omega)

theorem mixKey_withKey {q r : Nat} {s : State} {m : Memory} (h : AgreeUpTo q m s.K) (hr : r ≤ q) :
    mixKey r { s with K := m } = { mixKey r s with K := m } := by
  have hlanes : (lanesOf fun i => lane s.S i ^^^ keyWord m r i) = lanesOf fun i => lane s.S i ^^^ keyWord s.K r i :=
    lanesOf_congr fun i hi => by rw [h.keyWord_eq hr hi]
  simp only [mixKey, hlanes]

theorem roundWith_withKey {q r : Nat} {s : State} {m : Memory} (h : AgreeUpTo q m s.K) (hr : r ≤ q) :
    roundWith r { s with K := m } = { roundWith r s with K := m } := by
  rw [roundWith, mixKey_withKey h hr]
  rfl

theorem roundsUpTo_withKey {q n : Nat} {s : State} {m : Memory} (h : AgreeUpTo q m s.K) (hn : n ≤ q) :
    roundsUpTo n { s with K := m } = { roundsUpTo n s with K := m } := by
  induction n with
  | zero => rfl
  | succ n ih =>
    have hround : AgreeUpTo q m (roundsUpTo n s).K := by rwa [roundsUpTo_K]
    rw [roundsUpTo, ih (by omega), roundWith_withKey hround (by omega), roundsUpTo]

theorem encrypt_withKey {s : State} {m : Memory} (h : AgreeUpTo s.rounds.toNat m s.K) :
    encrypt { s with K := m } = { encrypt s with K := m } := by
  have hlast : AgreeUpTo s.rounds.toNat m (roundsUpTo s.rounds.toNat s).K := by rwa [roundsUpTo_K]
  rw [encrypt, roundsUpTo_withKey h le_rfl, mixKey_withKey hlast le_rfl, encrypt]

/-- What a completed command makes of the key memory `m`: `KGEN` fills it, and no other command writes it. -/
def keyAfter (i : Instr) (s : State) (m : Memory) : Memory :=
  match i with
  | .kgen => memFill (keyWords s) m
  | _ => m

theorem keyAfter_of_ne_kgen {i : Instr} (h : i ≠ .kgen) (s : State) (m : Memory) : keyAfter i s m = m := by
  cases i with
  | kgen => exact absurd rfl h
  | _ => rfl

/-- `KGEN` overwrites every word of the blocks `0 .. ROUNDS`, so nothing of what they held is left. -/
theorem keyAfter_kgen_agree (s : State) (m m' : Memory) :
    AgreeUpTo s.rounds.toNat (keyAfter .kgen s m) (keyAfter .kgen s m') := by
  intro n hn
  have hlen : n < (keyWords s).length := by rwa [keyWords_length]
  rw [keyAfter, keyAfter, memRead_memFill, memRead_memFill, if_pos hlen, if_pos hlen]

theorem encrypt_K (s : State) : (encrypt s).K = s.K := by rw [encrypt_frame]

theorem effectOf_K (i : Instr) (s : State) : (effectOf i s).K = keyAfter i s s.K := by
  cases i with
  | enc => exact encrypt_K s
  | kgen => rw [effectOf, generateKeys_spec, keyAfter]
  | _ => rfl

/-- A command that uses key material completes only while `KVALID` is set (60_exceptions.md R224). -/
theorem kvalid_of_checkOf {i : Instr} {s : State} (hcheck : checkOf i s = none) (hkey : usesKey i = true) :
    s.kvalid = true := by
  cases i with
  | rdk | ak | rnd | enc => simp_all [checkOf, keyFault]
  | _ => cases hkey

/-- The check of `AK r` and `RND r` (60_exceptions.md R223). -/
theorem le_rounds_of_check {r : Nat} {s : State} (h : firstFault (blockFault r s) (keyFault s) = none) :
    r ≤ s.rounds.toNat := by
  obtain ⟨hblock, -⟩ := (firstFault_eq_none _ _).1 h
  simpa [blockFault] using hblock

/-- A command that completes reads no key word but those of the blocks `0 .. ROUNDS`, and those only if it uses key
material. -/
theorem completion_withKey {i : Instr} {s : State} {m : Memory} (hcheck : checkOf i s = none)
    (hkey : usesKey i = true → AgreeUpTo s.rounds.toNat m s.K) :
    respond (answerOf i { s with K := m }) (effectOf i { s with K := m }) =
      { respond (answerOf i s) (effectOf i s) with K := keyAfter i s m } := by
  cases i with
  | rdk r n =>
    obtain ⟨⟨hr, hn⟩, -⟩ : (r ≤ s.rounds.toNat ∧ n ≤ 63) ∧ s.kvalid = true := by
      simpa [checkOf, blockFault, laneFault, keyFault] using hcheck
    have hword : keyWord m r n = keyWord s.K r n := (hkey rfl).keyWord_eq hr (by omega)
    rw [answerOf, hword]
    rfl
  | ak r =>
    rw [effectOf, mixKey_withKey (hkey rfl) (le_rounds_of_check hcheck)]
    rfl
  | rnd r =>
    rw [effectOf, roundWith_withKey (hkey rfl) (le_rounds_of_check hcheck)]
    rfl
  | enc =>
    rw [effectOf, encrypt_withKey (hkey rfl)]
    rfl
  | kgen =>
    rw [effectOf, generateKeys_contents s s.S s.T m, effectOf, generateKeys_spec]
    rfl
  | _ => rfl

/-- The results of one command in two units that differed in the key memory alone: they still do, and where `KGEN`
completed the words of the blocks `0 .. q` are the same. -/
def SameButUnfilledKey (i : Instr) (q : Nat) (t t' : State) : Prop :=
  t' = { t with K := t'.K } ∧ (i = .kgen → t.resp = some .ok → AgreeUpTo q t'.K t.K)

theorem exec_withKey {i : Instr} {s t : State} (m : Memory) (hkey : usesKey i = false) (h : exec i s = .next t) :
    ∃ t', exec i { s with K := m } = .next t' ∧ SameButUnfilledKey i s.rounds.toNat t t' := by
  refine exec_related _ h rfl (checkOf_contents i s s.S s.T m) (fun hcheck => ?_) fun _ _ => ⟨rfl, fun _ => nofun⟩
  rw [completion_withKey (m := m) hcheck fun huses => absurd (hkey.symm.trans huses) nofun]
  refine ⟨rfl, fun hkgen _ => ?_⟩
  subst hkgen
  rw [respond_K, effectOf_K]
  exact keyAfter_kgen_agree s m s.K

/-- Settles O38: a stopped command writes no key word, and a completed one only fills the key memory if it is `KGEN`. -/
theorem onlyKgenWritesKey : Obligations.OnlyKgenWritesKey := by
  refine ⟨fun i s t hne h => ?_, fun i s t m hkey h => exec_withKey m hkey h⟩
  obtain ⟨err, code, rfl⟩ | ⟨-, rfl⟩ := exec_stopsOrCompletes h
  · rfl
  · rw [respond_K, effectOf_K, keyAfter_of_ne_kgen hne]

/-- Key words that agree as far as commands can reach still do after a completed command. -/
theorem keyAfter_agree {i : Instr} {s : State} {m : Memory}
    (h : s.kvalid = true → AgreeUpTo s.rounds.toNat m s.K) (hvalid : (effectOf i s).kvalid = true) :
    AgreeUpTo (effectOf i s).rounds.toNat (keyAfter i s m) (effectOf i s).K := by
  rw [effectOf_K]
  cases i with
  | rst | setr => cases hvalid
  | enc =>
    rw [effectOf, encrypt_frame] at hvalid ⊢
    exact h hvalid
  | kgen =>
    rw [effectOf, generateKeys_spec]
    exact keyAfter_kgen_agree s m s.K
  | _ => exact h hvalid

theorem sameButUnreachableKey_iff {s s' : State} :
    SameButUnreachableKey s s' ↔ ∃ m, s' = { s with K := m } ∧ (s.kvalid = true → AgreeUpTo s.rounds.toNat m s.K) := by
  constructor
  · exact fun ⟨hs, hreach⟩ => ⟨s'.K, hs, hreach⟩
  · rintro ⟨m, rfl, hreach⟩
    exact ⟨rfl, hreach⟩

theorem exec_sameButUnreachableKey {i : Instr} {s s' t : State} (hs : SameButUnreachableKey s s')
    (h : exec i s = .next t) : ∃ t', exec i s' = .next t' ∧ SameButUnreachableKey t t' := by
  obtain ⟨m, rfl, hreach⟩ := sameButUnreachableKey_iff.1 hs
  refine exec_related _ h rfl (checkOf_contents i s s.S s.T m) (fun hcheck => ?_) fun _ _ => ⟨rfl, hreach⟩
  rw [completion_withKey hcheck fun huses => hreach (kvalid_of_checkOf hcheck huses)]
  exact ⟨rfl, keyAfter_agree hreach⟩

theorem keptBySteps_sameButUnreachableKey : KeptBySteps SameButUnreachableKey where
  pending := by rintro s s' ⟨hs, -⟩; rw [hs]
  err := by rintro s s' ⟨hs, -⟩; rw [hs]
  presented := by rintro s s' d rest ⟨hs, hreach⟩; exact ⟨by rw [hs]; rfl, hreach⟩
  stopped := by rintro s s' err code ⟨hs, hreach⟩; exact ⟨by rw [hs], hreach⟩
  reset := by rintro s s' lanes scratch ws rest ⟨hs, -⟩; exact ⟨by rw [hs]; rfl, nofun⟩
  command := fun _ => exec_sameButUnreachableKey

/-- Settles O49: `SameButUnreachableKey` is kept by every step. -/
theorem unreachableKeyIsNeverObserved : Obligations.UnreachableKeyIsNeverObserved :=
  fun n _ _ h => keptBySteps_sameButUnreachableKey.stepsOf n h

/-! ## The table of lane accesses (10_state.md R21) -/

theorem effectOf_lane {i : Instr} (s : State) {j : Nat} (hj : j < 64) (hw : writesLane i j = false) :
    lane (effectOf i s).S j = lane s.S j := by
  cases i with
  | rst | trn | sbl | pl | ak | rnd | enc => cases hw
  | wrs n | mir n src =>
    have hne : j ≠ n := of_decide_eq_false hw
    simp [effectOf, lane_setLane, hne]
  | sbx k =>
    have hne : ¬ j / 4 = k := of_decide_eq_false hw
    simp [effectOf, lane_sboxGroup k s.S hj, hne]
  | kgen => rw [effectOf, generateKeys_spec]
  | _ => rfl

theorem answerOf_withLanes {i : Instr} {s : State} {L : Lanes} (hcheck : checkOf i s = none)
    (hreads : ∀ j, j < 64 → readsLane i j = true → lane L j = lane s.S j) :
    answerOf i { s with S := L } = answerOf i s := by
  cases i with
  | rds n =>
    have hn : n ≤ 63 := by simpa [checkOf, laneFault] using hcheck
    rw [answerOf, hreads n (by omega) (decide_eq_true rfl), answerOf]
  | _ => rfl

theorem groupQuad_congr {L M : Lanes} {k : Nat} (hk : k ≤ 15) (h : ∀ j, j < 64 → j / 4 = k → lane L j = lane M j) :
    groupQuad L k = groupQuad M k := by
  have hlane (b : Nat) (hb : b < 4) : lane L (4 * k + b) = lane M (4 * k + b) := h _ (by omega) (by omega)
  have hfirst : lane L (4 * k) = lane M (4 * k) := hlane 0 (by decide)
  rw [groupQuad, groupQuad, hfirst, hlane 1 (by decide), hlane 2 (by decide), hlane 3 (by decide)]

/-- Two units that hold the same in the lanes a command reads hold the same in those it has written, and in all else. -/
theorem effectOf_withLanes {i : Instr} {s : State} {L : Lanes} (hcheck : checkOf i s = none)
    (hreads : ∀ j, j < 64 → readsLane i j = true → lane L j = lane s.S j) :
    ∃ M, effectOf i { s with S := L } = { effectOf i s with S := M } ∧
      ∀ j, j < 64 → writesLane i j = true → lane M j = lane (effectOf i s).S j := by
  cases i with
  | trn | sbl | pl | ak | rnd | enc =>
    obtain rfl : L = s.S := lanes_ext fun j hj => hreads j hj rfl
    exact ⟨_, rfl, fun _ _ _ => rfl⟩
  | rst => exact ⟨_, rfl, fun _ _ _ => rfl⟩
  | wrs n =>
    refine ⟨_, rfl, fun j hj hw => ?_⟩
    obtain rfl : j = n := of_decide_eq_true hw
    simp [effectOf, lane_setLane, hj]
  | mir d src =>
    obtain ⟨-, hsrc⟩ : d ≤ 63 ∧ src ≤ 63 := by simpa [checkOf, laneFault] using hcheck
    refine ⟨_, rfl, fun j hj hw => ?_⟩
    obtain rfl : j = d := of_decide_eq_true hw
    simp [effectOf, lane_setLane, hj, hreads src (by omega) (decide_eq_true rfl)]
  | sbx k =>
    have hk : k ≤ 15 := by simpa [checkOf, groupFault] using hcheck
    refine ⟨_, rfl, fun j hj hw => ?_⟩
    have hgroup : groupQuad L k = groupQuad s.S k :=
      groupQuad_congr hk fun n hn hnk => hreads n hn (decide_eq_true hnk)
    have hjk : j / 4 = k := of_decide_eq_true hw
    rw [effectOf, lane_sboxGroup k L hj, lane_sboxGroup k s.S hj, if_pos hjk, if_pos hjk, hgroup]
  | kgen =>
    refine ⟨L, ?_, nofun⟩
    exact (generateKeys_contents s L s.T s.K).trans (by rw [effectOf, generateKeys_spec])
  | _ => exact ⟨L, rfl, nofun⟩

/-- The results of one command in two units that differed in lanes it does not read: they differ in the lanes alone, and
where it completed not in those it writes. -/
def SameButUnwrittenLanes (i : Instr) (t t' : State) : Prop :=
  t' = { t with S := t'.S } ∧
  (t.resp = some .ok → ∀ j, j < 64 → writesLane i j = true → lane t'.S j = lane t.S j)

theorem exec_withLanes {i : Instr} {s t : State} {L : Lanes}
    (hreads : ∀ j, j < 64 → readsLane i j = true → lane L j = lane s.S j) (h : exec i s = .next t) :
    ∃ t', exec i { s with S := L } = .next t' ∧ SameButUnwrittenLanes i t t' := by
  refine exec_related _ h rfl (checkOf_contents i s L s.T s.K) (fun hcheck => ?_) fun _ _ => ⟨rfl, nofun⟩
  obtain ⟨M, hM, hwritten⟩ := effectOf_withLanes hcheck hreads
  rw [answerOf_withLanes hcheck hreads, hM]
  exact ⟨rfl, fun _ => hwritten⟩

/-- Settles O46: a stopped command writes no lane, and a completed one keeps to the table. -/
theorem laneRegisterTable : Obligations.LaneRegisterTable := by
  refine ⟨fun i s t h j hj hw => ?_, fun i s t t' L hreads h h' => ?_⟩
  · obtain ⟨err, code, rfl⟩ | ⟨-, rfl⟩ := exec_stopsOrCompletes h
    · rfl
    · exact effectOf_lane s hj hw
  · obtain ⟨u, hu, hsame⟩ := exec_withLanes hreads h
    cases h'.symm.trans hu
    exact hsame

/-! ## The constant `CAP` (10_state.md R33) -/

theorem controlReg_cap (s : State) : controlReg 3 s = capReg s := rfl

theorem capReg_toNat (s : State) : (capReg s).toNat = 64 * 256 + s.maxRounds.toNat := by
  rw [capReg, toNat_append_mul, toNat_append_mul]
  rfl

/-- A field of `CAP` is a quotient and a remainder of its number. -/
theorem capReg_field (s : State) (start len : Nat) :
    ((capReg s).extractLsb' start len).toNat = (64 * 256 + s.maxRounds.toNat) / 2 ^ start % 2 ^ len := by
  rw [BitVec.extractLsb'_toNat, capReg_toNat, Nat.shiftRight_eq_div_pow]

/-- Settles O44: no step changes `MAX_ROUNDS`, the one field `CAP` is made of. -/
theorem capIsConstant : Obligations.CapIsConstant := by
  refine ⟨fun s t h => ?_, fun s => ?_, fun s h => ?_⟩
  · obtain ⟨hmax, -⟩ := step_fixed h
    rw [controlReg_cap, controlReg_cap, capReg, capReg, hmax]
  · have hlt : s.maxRounds.toNat < 256 := s.maxRounds.isLt
    rw [controlReg_cap]
    refine ⟨BitVec.eq_of_toNat_eq ?_, BitVec.eq_of_toNat_eq ?_, BitVec.eq_of_toNat_eq ?_⟩ <;> rw [capReg_field] <;>
      simp <;> omega
  · rw [controlReg_cap, capReg, h]
    rfl

end Sys2Proof.Proofs
end

section
/-! PROOF. The family 30_encoding.md. A row of the opcode map says the same as the fields of the word do: the field `op`
is the row's and the fields its format reserves are 0 (R71 to R73). Through that, the decoder accepts a word exactly when
it matches the row of a command (R76). -/

namespace Sys2Proof.Proofs

open Sys2Proof.Laws

/-! ## A row's mask, field by field -/

theorem cmd_ext_iff {v w : Cmd} :
    v = w ↔ opField v = opField w ∧ aField v = aField w ∧ bField v = bField w ∧ cField v = cField w :=
  ⟨by rintro rfl; exact ⟨rfl, rfl, rfl, rfl⟩, fun ⟨hop, ha, hb, hc⟩ => cmd_ext hop ha hb hc⟩

/-- A mask keeps a field where all of its bits are set. -/
theorem extract_and_of_allBits {m : Cmd} {start : Nat} (h : m.extractLsb' start 8 = 255#8) (w : Cmd) :
    (w &&& m).extractLsb' start 8 = w.extractLsb' start 8 := by
  rw [BitVec.extractLsb'_and, h, and_allBits]

/-- A mask clears a field where none of its bits is set. -/
theorem extract_and_of_noBits {m : Cmd} {start : Nat} (h : m.extractLsb' start 8 = 0#8) (w : Cmd) :
    (w &&& m).extractLsb' start 8 = 0#8 := by
  rw [BitVec.extractLsb'_and, h, BitVec.and_zero]

section
variable {name : String} {bits w : Cmd} (hbits : aField bits = 0 ∧ bField bits = 0 ∧ cField bits = 0)
include hbits

/-- 30_encoding.md R71: the mask of format `Z` keeps the whole word. -/
theorem matchesRow_formatZ :
    matchesRow ⟨name, bits, 0xFFFFFFFF⟩ w = true ↔
      opField w = opField bits ∧ aField w = 0 ∧ bField w = 0 ∧ cField w = 0 := by
  obtain ⟨ha, hb, hc⟩ := hbits
  have hall : w &&& 0xFFFFFFFF = w := BitVec.and_allOnes
  rw [matchesRow, decide_eq_true_eq, hall, cmd_ext_iff, ha, hb, hc]

/-- A mask that keeps `op` and `c` and clears `a`, as those of the formats `A` and `AB` do, leaves `b` to say. -/
theorem matchesRow_of_clearedA {mask : Cmd} (hop : mask.extractLsb' 24 8 = 255#8) (ha : mask.extractLsb' 16 8 = 0#8)
    (hc : mask.extractLsb' 0 8 = 255#8) :
    matchesRow ⟨name, bits, mask⟩ w = true ↔ opField w = opField bits ∧ bField (w &&& mask) = 0 ∧ cField w = 0 := by
  obtain ⟨hbitsA, hbitsB, hbitsC⟩ := hbits
  have hopKept : opField (w &&& mask) = opField w := congrArg BitVec.toNat (extract_and_of_allBits hop w)
  have haCleared : aField (w &&& mask) = 0 := congrArg BitVec.toNat (extract_and_of_noBits ha w)
  have hcKept : cField (w &&& mask) = cField w := congrArg BitVec.toNat (extract_and_of_allBits hc w)
  rw [matchesRow, decide_eq_true_eq, cmd_ext_iff, hopKept, haCleared, hcKept, hbitsA, hbitsB, hbitsC, eq_self,
    true_and]

/-- 30_encoding.md R72: the mask of format `A` leaves out the field `a`. -/
theorem matchesRow_formatA :
    matchesRow ⟨name, bits, 0xFF00FFFF⟩ w = true ↔ opField w = opField bits ∧ bField w = 0 ∧ cField w = 0 := by
  have hbKept : bField (w &&& 0xFF00FFFF) = bField w := congrArg BitVec.toNat (extract_and_of_allBits rfl w)
  rw [matchesRow_of_clearedA hbits rfl rfl rfl, hbKept]

/-- 30_encoding.md R73: the mask of format `AB` leaves out the fields `a` and `b`. -/
theorem matchesRow_formatAB :
    matchesRow ⟨name, bits, 0xFF0000FF⟩ w = true ↔ opField w = opField bits ∧ cField w = 0 := by
  have hbCleared : bField (w &&& 0xFF0000FF) = 0 := congrArg BitVec.toNat (extract_and_of_noBits rfl w)
  rw [matchesRow_of_clearedA hbits rfl rfl rfl, hbCleared, eq_self, true_and]

end

/-! ## Decoding and the rows -/

/-- A format accepts a word exactly when the fields it reserves are 0. -/
theorem okIfReservedZero_iff {p : Prop} [Decidable p] {i j : Instr} :
    (if p then .ok i else .error .reservedField : Except IllegalReason Instr) = .ok j ↔ p ∧ i = j := by
  by_cases hp : p <;> simp [hp]

theorem formatZ_eq_ok_iff {w : Cmd} {i j : Instr} :
    formatZ w i = .ok j ↔ (aField w = 0 ∧ bField w = 0 ∧ cField w = 0) ∧ i = j := okIfReservedZero_iff

theorem formatA_eq_ok_iff {w : Cmd} {mk : Nat → Instr} {i : Instr} :
    formatA w mk = .ok i ↔ (bField w = 0 ∧ cField w = 0) ∧ mk (aField w) = i := okIfReservedZero_iff

theorem formatAB_eq_ok_iff {w : Cmd} {mk : Nat → Nat → Instr} {i : Instr} :
    formatAB w mk = .ok i ↔ cField w = 0 ∧ mk (aField w) (bField w) = i := okIfReservedZero_iff

/-- The command with its operands taken from the fields of the word (30_encoding.md R75). -/
def withOperands (w : Cmd) : Instr → Instr
  | .wrs _ => .wrs (aField w)
  | .rds _ => .rds (aField w)
  | .rdk _ _ => .rdk (aField w) (bField w)
  | .setr _ => .setr (aField w)
  | .setm _ => .setm (aField w)
  | .rdc _ => .rdc (aField w)
  | .mir _ _ => .mir (aField w) (bField w)
  | .sbx _ => .sbx (aField w)
  | .ak _ => .ak (aField w)
  | .rnd _ => .rnd (aField w)
  | i => i

/-- The operands of a command do not choose its row. -/
theorem rowOf_withOperands (w : Cmd) (i : Instr) : rowOf (withOperands w i) = rowOf i := by cases i <;> rfl

theorem mem_opcodeTable_iff {row : OpcodeRow} : row ∈ opcodeTable ↔ ∃ i, rowOf i = row := by
  constructor
  · have hrows : ∀ row ∈ opcodeTable, ∃ i, rowOf i = row := by simp [opcodeTable]
    exact hrows row
  · rintro ⟨i, rfl⟩
    cases i <;> simp [opcodeTable, rowOf]

theorem decode_of_matchesRow {i : Instr} {w : Cmd} (h : matchesRow (rowOf i) w = true) :
    decode w = .ok (withOperands w i) := by
  cases i with
  | nop | rst | trn | sbl | pl | enc | kgen =>
    obtain ⟨hop, hreserved⟩ := (matchesRow_formatZ ⟨rfl, rfl, rfl⟩).1 h
    rw [decode, hop]
    exact formatZ_eq_ok_iff.2 ⟨hreserved, rfl⟩
  | wrs | rds | setr | setm | rdc | sbx | ak | rnd =>
    obtain ⟨hop, hreserved⟩ := (matchesRow_formatA ⟨rfl, rfl, rfl⟩).1 h
    rw [decode, hop]
    exact formatA_eq_ok_iff.2 ⟨hreserved, rfl⟩
  | rdk | mir =>
    obtain ⟨hop, hreserved⟩ := (matchesRow_formatAB ⟨rfl, rfl, rfl⟩).1 h
    rw [decode, hop]
    exact formatAB_eq_ok_iff.2 ⟨hreserved, rfl⟩

theorem exists_decode_of_matchesRow {w : Cmd} {row : OpcodeRow} (hrow : row ∈ opcodeTable)
    (h : matchesRow row w = true) : ∃ i, decode w = .ok i ∧ rowOf i = row := by
  obtain ⟨i, rfl⟩ := mem_opcodeTable_iff.1 hrow
  exact ⟨_, decode_of_matchesRow h, rowOf_withOperands w i⟩

theorem matchesRow_of_decode {i : Instr} {w : Cmd} (h : decode w = .ok i) : matchesRow (rowOf i) w = true := by
  unfold decode at h
  split at h
  -- the cases are the rows in the order of the opcode map, gathered by format; the last is a word with no listed `op`
  case h_1 hop | h_2 hop | h_10 hop | h_12 hop | h_13 hop | h_16 hop | h_17 hop =>
    obtain ⟨hreserved, rfl⟩ := formatZ_eq_ok_iff.1 h
    exact (matchesRow_formatZ ⟨rfl, rfl, rfl⟩).2 ⟨hop, hreserved⟩
  case h_3 hop | h_4 hop | h_6 hop | h_7 hop | h_8 hop | h_11 hop | h_14 hop | h_15 hop =>
    obtain ⟨hreserved, rfl⟩ := formatA_eq_ok_iff.1 h
    exact (matchesRow_formatA ⟨rfl, rfl, rfl⟩).2 ⟨hop, hreserved⟩
  case h_5 hop | h_9 hop =>
    obtain ⟨hreserved, rfl⟩ := formatAB_eq_ok_iff.1 h
    exact (matchesRow_formatAB ⟨rfl, rfl, rfl⟩).2 ⟨hop, hreserved⟩
  case h_18 => cases h

/-- Settles O7. A word decodes to the command of a row it matches, and to no other, so two rows it matches are one. -/
theorem opcodeMapDecides : Obligations.OpcodeMapDecides := by
  refine ⟨fun w i h => ⟨mem_opcodeTable_iff.2 ⟨i, rfl⟩, matchesRow_of_decode h⟩,
    fun _ _ hrow h => exists_decode_of_matchesRow hrow h, fun w row row' hrow hrow' h h' => ?_, rfl⟩
  obtain ⟨i, hi, rfl⟩ := exists_decode_of_matchesRow hrow h
  obtain ⟨i', hi', rfl⟩ := exists_decode_of_matchesRow hrow' h'
  obtain rfl : i = i' := Except.ok.inj (hi.symm.trans hi')
  rfl

end Sys2Proof.Proofs
end

section
/-! PROOF. The family 40_bit_transform.md. `mirror` and `transpose` are described by the bits they move, and so are the
commands: what holds of a bit and its image settles every law. -/

namespace Sys2Proof.Proofs

open Sys2Proof.Machine

/-! ## A format read off the decoder's row (30_encoding.md R71, R73, R77) -/

theorem answersIllegal_of_decode {w : Cmd} {e : IllegalReason} (h : decode w = .error e) : AnswersIllegal w := by
  have hrun (s : State) : runCommand w s = gated (some .illegalCmd) .ok s s := by rw [runCommand, h, illegalCommand]
  refine ⟨fun s hs => ?_, fun s c hc => (hrun s).trans (gated_faulted hc ..)⟩
  rw [hrun, gated_raise hs, raise, hs, Option.getD_none]

theorem toNat_packCmd {op a b : Nat} (hop : op < 256) (ha : a < 256) (hb : b < 256) :
    (packCmd op a b).toNat = op <<< 24 ||| a <<< 16 ||| b <<< 8 := by
  rw [packCmd, BitVec.toNat_append, BitVec.toNat_append, BitVec.toNat_append]
  simp [Nat.mod_eq_of_lt, hop, ha, hb, Nat.shiftLeft_or_distrib, ← Nat.shiftLeft_add]

/-- The word written as shifted fields is the packed word. -/
theorem ofNat_fields {op a b : Nat} (hop : op < 256) (ha : a < 256) (hb : b < 256) :
    BitVec.ofNat 32 (op <<< 24 ||| a <<< 16 ||| b <<< 8) = packCmd op a b := by
  rw [← toNat_packCmd hop ha hb, BitVec.ofNat_toNat, BitVec.setWidth_eq]

theorem encodingZ_of_decode {op : Nat} {i : Instr} (hop : op < 256)
    (hdecode : ∀ w, opField w = op → decode w = formatZ w i) : EncodingZ op i := by
  refine ⟨?_, fun w hw hreserved => ?_⟩
  · have hword : BitVec.ofNat 32 (op <<< 24) = packCmd op 0 0 := by
      simpa using ofNat_fields hop (a := 0) (b := 0) (by decide) (by decide)
    rw [hword, hdecode _ (by simp [Nat.mod_eq_of_lt hop])]
    exact formatZ_eq_ok_iff.2 ⟨by simp, rfl⟩
  · have hnonzero : ¬ (aField w = 0 ∧ bField w = 0 ∧ cField w = 0) := by tauto
    exact answersIllegal_of_decode ((hdecode w hw).trans (if_neg hnonzero))

theorem encodingAB_of_decode {op : Nat} {mk : Nat → Nat → Instr} (hop : op < 256)
    (hdecode : ∀ w, opField w = op → decode w = formatAB w mk) : EncodingAB op mk := by
  refine ⟨fun a b ha hb => ?_, fun w hw hc => answersIllegal_of_decode ((hdecode w hw).trans (if_neg hc))⟩
  rw [ofNat_fields hop ha hb, hdecode _ (by simp [Nat.mod_eq_of_lt hop])]
  exact formatAB_eq_ok_iff.2 ⟨by simp, by simp [Nat.mod_eq_of_lt, ha, hb]⟩

/-! ## A gated command by its check -/

section GatedByCheck

variable {i : Instr} (hexec : ∀ s, exec i s = gated (checkOf i s) (answerOf i s) (effectOf i s) s)
include hexec

theorem refuses_of_gated : Refuses i := fun s _ hc => (hexec s).trans (gated_faulted hc ..)

theorem raises_of_checkOf {s : State} {f : FaultCode} (hs : s.err = none) (hcheck : checkOf i s = some f) :
    Raises f i s := by
  rw [Raises, hexec, hcheck, gated_raise hs, raise, hs, Option.getD_none]

end GatedByCheck

theorem execList_cons {i : Instr} {s t : State} (h : exec i s = .next t) (rest : List Instr) :
    execList (i :: rest) s = execList rest t := by rw [execList, h]

/-! ## Operations that act bit by bit -/

/-- Every bit of the result is `f` of the two bits at its position. -/
def ActsBitwise (op : Word → Word → Word) (f : Bool → Bool → Bool) : Prop :=
  ∀ x y i, i < 64 → (op x y).getLsbD i = f (x.getLsbD i) (y.getLsbD i)

theorem actsBitwise_xor : ActsBitwise (· ^^^ ·) xor := fun _ _ _ _ => BitVec.getLsbD_xor

theorem actsBitwise_and : ActsBitwise (· &&& ·) and := fun _ _ _ _ => BitVec.getLsbD_and

theorem actsBitwise_or : ActsBitwise (· ||| ·) or := fun _ _ _ _ => BitVec.getLsbD_or

theorem actsBitwise_not : ActsBitwise (fun x _ => ~~~x) (fun a _ => !a) := fun x _ i hi => by simp [hi]

/-! ## `mirror` (40_bit_transform.md R102) -/

theorem mirror_involutive : Function.Involutive mirror := fun x =>
  word_ext fun i hi => by
    have hback : 63 - (63 - i) = i := by omega
    rw [getLsbD_mirror _ hi, getLsbD_mirror _ (by omega), hback]

theorem mirror_bitwise {op : Word → Word → Word} {f : Bool → Bool → Bool} (h : ActsBitwise op f) (x y : Word) :
    mirror (op x y) = op (mirror x) (mirror y) :=
  word_ext fun i hi => by
    rw [getLsbD_mirror _ hi, h x y _ (by omega), h _ _ i hi, getLsbD_mirror x hi, getLsbD_mirror y hi]

theorem mirror_eq_self_iff {x : Word} : mirror x = x ↔ ∀ i, i < 64 → x.getLsbD i = x.getLsbD (63 - i) := by
  constructor
  · intro h i hi
    rw [← getLsbD_mirror x hi, h]
  · exact fun h => word_ext fun i hi => by rw [getLsbD_mirror x hi, h i hi]

/-- The word that reads `lo` from either end. -/
def palindrome (lo : BitVec 32) : Word := wordOf fun i => lo.getLsbD (if i < 32 then i else 63 - i)

theorem getLsbD_palindrome (lo : BitVec 32) {i : Nat} (hi : i < 64) :
    (palindrome lo).getLsbD i = lo.getLsbD (if i < 32 then i else 63 - i) := by
  rw [palindrome, getLsbD_wordOf, decide_eq_true hi, Bool.true_and]

theorem lowerHalf_eq_iff {x : Word} {lo : BitVec 32} :
    x.extractLsb' 0 32 = lo ↔ ∀ i, i < 32 → x.getLsbD i = lo.getLsbD i := by
  have hbit (i : Nat) (hi : i < 32) : (x.extractLsb' 0 32).getLsbD i = x.getLsbD i := by simp [hi]
  constructor
  · rintro rfl i hi
    exact (hbit i hi).symm
  · exact fun h => BitVec.eq_of_getLsbD_eq fun i hi => (hbit i hi).trans (h i hi)

/-- A fixed point is determined by its lower half: the upper half repeats it backwards. -/
theorem fixedPoint_iff_eq_palindrome {x : Word} {lo : BitVec 32} :
    mirror x = x ∧ x.extractLsb' 0 32 = lo ↔ x = palindrome lo := by
  rw [mirror_eq_self_iff, lowerHalf_eq_iff]
  constructor
  · rintro ⟨hsym, hlow⟩
    refine word_ext fun i hi => ?_
    by_cases hlt : i < 32
    · rw [getLsbD_palindrome lo hi, if_pos hlt, hlow i hlt]
    · rw [getLsbD_palindrome lo hi, if_neg hlt, hsym i hi, hlow (63 - i) (by omega)]
  · rintro rfl
    refine ⟨fun i hi => ?_, fun i hi => ?_⟩
    · have hmirrored : (if i < 32 then i else 63 - i) = if 63 - i < 32 then 63 - i else 63 - (63 - i) := by
        split <;> split <;> omega
      rw [getLsbD_palindrome lo hi, getLsbD_palindrome lo (by omega), hmirrored]
    · rw [getLsbD_palindrome lo (by omega), if_pos hi]

/-- Settles O21, bit by bit; the fixed points are the palindromes. -/
theorem mirrorLaws : Obligations.MirrorLaws :=
  ⟨mirror_involutive, by decide, by decide, mirror_involutive.bijective,
    fun x y => ⟨mirror_bitwise actsBitwise_xor x y, mirror_bitwise actsBitwise_and x y,
      mirror_bitwise actsBitwise_or x y, mirror_bitwise actsBitwise_not x x⟩,
    fun _ => mirror_eq_self_iff,
    fun lo => ⟨palindrome lo, fixedPoint_iff_eq_palindrome.2 rfl, fun _ => fixedPoint_iff_eq_palindrome.1⟩⟩

/-! ## `transpose` (40_bit_transform.md R105) -/

theorem getLsbD_lane_transpose (M : Lanes) {i j : Nat} (hi : i < 64) (hj : j < 64) :
    (lane (transpose M) j).getLsbD i = (lane M i).getLsbD j := by rw [lane_transpose M hj, getLsbD_row M j hi]

/-- `N` is the transpose of `M` when each of its bits is the bit of `M` across the diagonal. -/
theorem transpose_eq_of_bits {M N : Lanes}
    (h : ∀ i j, i < 64 → j < 64 → (lane M i).getLsbD j = (lane N j).getLsbD i) : transpose M = N :=
  lanes_ext fun j hj => word_ext fun i hi => (getLsbD_lane_transpose M hi hj).trans (h i j hi hj)

theorem transpose_involutive : Function.Involutive transpose := fun M =>
  transpose_eq_of_bits fun _ _ hi hj => getLsbD_lane_transpose M hj hi

theorem transpose_bitwise {op : Word → Word → Word} {f : Bool → Bool → Bool} (h : ActsBitwise op f) (M N : Lanes) :
    transpose (lanesOf fun i => op (lane M i) (lane N i)) =
      lanesOf fun i => op (lane (transpose M) i) (lane (transpose N) i) :=
  transpose_eq_of_bits fun i j hi hj => by
    rw [lane_lanesOf, lane_lanesOf, if_pos hi, if_pos hj, h _ _ j hj, h _ _ i hi, getLsbD_lane_transpose M hi hj,
      getLsbD_lane_transpose N hi hj]

theorem getLsbD_lane_singleBit {i j : Nat} (hi : i < 64) (hj : j < 64) (m n : Nat) :
    (lane (setLane zeroLanes i (BitVec.twoPow 64 j)) m).getLsbD n = decide (m = i ∧ n = j) := by
  rw [lane_setLane]
  by_cases hm : m = i
  · simp [hm, hi, hj, BitVec.getLsbD_twoPow, eq_comm]
  · simp [hm]

theorem transpose_singleBit {i j : Nat} (hi : i < 64) (hj : j < 64) :
    transpose (setLane zeroLanes i (BitVec.twoPow 64 j)) = setLane zeroLanes j (BitVec.twoPow 64 i) :=
  transpose_eq_of_bits fun m n _ _ => by
    rw [getLsbD_lane_singleBit hi hj, getLsbD_lane_singleBit hj hi, decide_eq_decide, and_comm]

theorem transpose_identity :
    transpose (lanesOf fun i => BitVec.twoPow 64 i) = lanesOf fun i => BitVec.twoPow 64 i :=
  transpose_eq_of_bits fun i j hi hj => by
    rw [lane_lanesOf, lane_lanesOf, if_pos hi, if_pos hj, BitVec.getLsbD_twoPow, BitVec.getLsbD_twoPow]
    simp [hi, hj, eq_comm]

theorem exec_trn_legal {s : State} (hs : s.err = none) :
    exec .trn s = .next (respond .ok { s with T := transpose s.S, S := transpose s.S }) :=
  (exec_trn s).trans (gated_done hs ..)

theorem execList_trn_trn {s : State} (hs : s.err = none) :
    ∃ t, execList [.trn, .trn] s = .next t ∧ t.S = s.S := by
  have hsecond := exec_trn_legal (s := respond .ok { s with T := transpose s.S, S := transpose s.S }) hs
  rw [execList_cons (exec_trn_legal hs), execList_cons hsecond]
  exact ⟨_, rfl, transpose_involutive s.S⟩

/-- Settles O22, each law by the bit across the diagonal. -/
theorem transposeLaws : Obligations.TransposeLaws :=
  ⟨transpose_involutive, fun _ => execList_trn_trn, transpose_involutive.bijective,
    fun M N => ⟨transpose_bitwise actsBitwise_xor M N, transpose_bitwise actsBitwise_and M N,
      transpose_bitwise actsBitwise_or M N, transpose_bitwise actsBitwise_not M M⟩,
    fun _ _ => transpose_singleBit, transpose_identity⟩

/-! ## The commands `MIR` (R101) and `TRN` (R104) -/

theorem encodingAB_mir : EncodingAB 0x20 .mir :=
  encodingAB_of_decode (by decide) fun w hw => by simp only [decode, hw]

theorem encodingZ_trn : EncodingZ 0x21 .trn :=
  encodingZ_of_decode (by decide) fun w hw => by simp only [decode, hw]

theorem checkOf_mir_of_out {d src : Nat} (h : 63 < d ∨ 63 < src) (s : State) :
    checkOf (.mir d src) s = some .badIndex := by
  by_cases hd : 63 < d
  · simp [checkOf, laneFault, hd]
  · simp [checkOf, laneFault, hd, h.resolve_left hd]

/-- Settles O19: the new word of lane `d` is the mirrored source as it was before, `d = src` included. -/
theorem mirMirrorsOneLane : Obligations.MirMirrorsOneLane := by
  refine ⟨encodingAB_mir, fun d src => refuses_of_gated (exec_mir d src), fun s d src hs hd hsrc => ?_,
    fun s d src hs hout => raises_of_checkOf (exec_mir d src) hs (checkOf_mir_of_out hout s)⟩
  refine ⟨_, exec_mir_legal hd hsrc hs, fun i hi => ?_, fun j hj => ?_, rfl⟩
  · have hd' : d < 64 := by omega
    simp [lane_setLane, hd', getLsbD_mirror _ hi]
  · simp [lane_setLane, hj]

/-- Settles O20: the lanes and the scratch buffer both take the transpose of the lanes before. -/
theorem trnTransposes : Obligations.TrnTransposes :=
  ⟨encodingZ_trn, refuses_of_gated exec_trn, fun s hs =>
    ⟨_, exec_trn_legal hs, fun _ _ hi hj => getLsbD_lane_transpose s.S hi hj, rfl, rfl⟩⟩

end Sys2Proof.Proofs
end

section
/-! PROOF. The family 41_sbox.md. The S-box over words is the table at every bit position (R121), and both commands are
described group by group (R122): `SBX` substitutes one group and `SBL` all of them, so the order of the groups does not
matter (R126). -/

namespace Sys2Proof.Proofs

open Sys2Proof.Machine

/-! ## The S-box over words and the table (R120, R121, R123) -/

/-- Four lane-words are determined by their values at the 64 bit positions. -/
theorem quad_ext {x y : Quad} (h : ∀ j, j < 64 → quadValue x j = quadValue y j) : x = y := by
  have hword (b : Nat) (hb : b < 4) : quadAt x b = quadAt y b := word_ext fun j hj => by
    rw [← getLsbD_quadValue x j hb, h j hj, getLsbD_quadValue y j hb]
  obtain ⟨x0, x1, x2, x3⟩ := x
  obtain ⟨y0, y1, y2, y3⟩ := y
  exact (Quad.mk.injEq ..).mpr ⟨hword 0 (by decide), hword 1 (by decide), hword 2 (by decide), hword 3 (by decide)⟩

theorem quadValue_sbox (x : Quad) {j : Nat} (hj : j < 64) : quadValue (sbox x) j = sboxEntry (quadValue x j) :=
  BitVec.eq_of_getLsbD_eq fun b hb => by rw [getLsbD_quadValue _ j hb, getLsbD_quadAt_sbox x hj hb]

theorem getLsbD_quadAt_sboxByTable (x : Quad) {j b : Nat} (hj : j < 64) (hb : b < 4) :
    (quadAt (sboxByTable x) b).getLsbD j = (sboxEntry (quadValue x j)).getLsbD b := by
  obtain rfl | rfl | rfl | rfl : b = 0 ∨ b = 1 ∨ b = 2 ∨ b = 3 := by omega
  all_goals exact (getLsbD_wordOf ..).trans (by rw [decide_eq_true hj, Bool.true_and])

theorem quadValue_sboxByTable (x : Quad) {j : Nat} (hj : j < 64) :
    quadValue (sboxByTable x) j = sboxEntry (quadValue x j) :=
  BitVec.eq_of_getLsbD_eq fun b hb => by rw [getLsbD_quadValue _ j hb, getLsbD_quadAt_sboxByTable x hj hb]

theorem sbox_eq_sboxByTable (x : Quad) : sbox x = sboxByTable x :=
  quad_ext fun _ hj => (quadValue_sbox x hj).trans (quadValue_sboxByTable x hj).symm

theorem quadValue_toNat (x : Quad) (j : Nat) : (quadValue x j).toNat =
    8 * (x.w3.getLsbD j).toNat + 4 * (x.w2.getLsbD j).toNat + 2 * (x.w1.getLsbD j).toNat + (x.w0.getLsbD j).toNat := by
  simp only [quadValue, toNat_append_mul, BitVec.toNat_ofBool]
  omega

/-- Settles O24: both forms of the S-box have the table's entry as their value at every bit position. -/
theorem sboxEqualsTable : Obligations.SboxEqualsTable :=
  ⟨fun _ _ _ _ => rfl, fun x _ _ hb hj => getLsbD_quadAt_sbox x hj hb, sbox_eq_sboxByTable,
    fun x j _ => quadValue_toNat x j, by decide⟩

/-! ## The S-box on groups of lanes (R122) -/

theorem groupQuad_eq_of_lanes {L : Lanes} {k : Nat} {y : Quad} (hk : k ≤ 15)
    (h : ∀ i, i < 64 → i / 4 = k → lane L i = quadAt y (i % 4)) : groupQuad L k = y :=
  quad_ext fun j _ => BitVec.eq_of_getLsbD_eq fun b hb => by
    have hmod : (4 * k + b) % 4 = b := by omega
    rw [getLsbD_quadValue _ j hb, getLsbD_quadValue _ j hb, quadAt_groupQuad L k hb, h _ (by omega) (by omega), hmod]

/-- The 16 groups make up the lanes. -/
theorem lanes_ext_groups {L M : Lanes} (h : ∀ k, k ≤ 15 → groupQuad L k = groupQuad M k) : L = M :=
  lanes_ext fun i hi => by
    have hb : i % 4 < 4 := by omega
    have hi' : 4 * (i / 4) + i % 4 = i := by omega
    rw [← hi', ← quadAt_groupQuad L _ hb, h (i / 4) (by omega), quadAt_groupQuad M _ hb]

/-- The groups are disjoint: the S-box on group `k` leaves the others as they were. -/
theorem groupQuad_sboxGroup (L : Lanes) (k : Nat) {m : Nat} (hm : m ≤ 15) :
    groupQuad (sboxGroup k L) m = if m = k then sbox (groupQuad L m) else groupQuad L m := by
  by_cases hmk : m = k
  · subst hmk
    rw [if_pos rfl]
    exact groupQuad_eq_of_lanes hm fun i hi him => by rw [lane_sboxGroup m L hi, if_pos him]
  · rw [if_neg hmk]
    exact groupQuad_congr hm fun i hi him => by rw [lane_sboxGroup k L hi, him, if_neg hmk]

theorem groupQuad_sboxAll (L : Lanes) {k : Nat} (hk : k ≤ 15) : groupQuad (sboxAll L) k = sbox (groupQuad L k) :=
  groupQuad_eq_of_lanes hk fun i hi hik => by rw [lane_sboxAll L hi, hik]

/-- A group that holds the S-box outputs of another holds the table's bits. -/
theorem getLsbD_lane_of_groupQuad {L M : Lanes} {k b j : Nat} (h : groupQuad M k = sbox (groupQuad L k)) (hb : b < 4)
    (hj : j < 64) : (lane M (4 * k + b)).getLsbD j = (sboxEntry (quadValue (groupQuad L k) j)).getLsbD b := by
  rw [← quadAt_groupQuad M k hb, h, getLsbD_quadAt_sbox _ hj hb]

theorem lane_sboxGroup_of_ne {k i : Nat} (L : Lanes) (h : i / 4 ≠ k) : lane (sboxGroup k L) i = lane L i := by
  by_cases hi : i < 64
  · rw [lane_sboxGroup k L hi, if_neg h]
  · rw [lane_out _ hi, lane_out _ hi]

/-! ## The commands `SBX` (R124) and `SBL` (R125) -/

theorem encodingA_of_decode {op : Nat} {mk : Nat → Instr} (hop : op < 256)
    (hdecode : ∀ w, opField w = op → decode w = formatA w mk) : EncodingA op mk := by
  refine ⟨fun a ha => ?_, fun w hw hreserved => ?_⟩
  · have hword : BitVec.ofNat 32 (op <<< 24 ||| a <<< 16) = packCmd op a 0 := by
      simpa using ofNat_fields hop ha (b := 0) (by decide)
    rw [hword, hdecode _ (by simp [Nat.mod_eq_of_lt hop])]
    exact formatA_eq_ok_iff.2 ⟨by simp, by simp [Nat.mod_eq_of_lt ha]⟩
  · have hnonzero : ¬ (bField w = 0 ∧ cField w = 0) := by tauto
    exact answersIllegal_of_decode ((hdecode w hw).trans (if_neg hnonzero))

theorem encodingA_sbx : EncodingA 0x30 .sbx :=
  encodingA_of_decode (by decide) fun w hw => by simp only [decode, hw]

theorem encodingZ_sbl : EncodingZ 0x31 .sbl :=
  encodingZ_of_decode (by decide) fun w hw => by simp only [decode, hw]

theorem exec_sbx_legal {k : Nat} {s : State} (hk : k ≤ 15) (hs : s.err = none) :
    exec (.sbx k) s = .next (respond .ok { s with S := sboxGroup k s.S }) := by
  have hlegal : groupFault k = none := by simpa [groupFault] using hk
  rw [exec_sbx, hlegal, gated_done hs]

theorem exec_sbl_legal {s : State} (hs : s.err = none) : exec .sbl s = .next (respond .ok (sboxLayer s)) :=
  (exec_sbl s).trans (gated_done hs ..)

/-- Settles O25: the group's lanes take the S-box outputs, and a lane of another group keeps its word. -/
theorem sbxSubstitutesOneGroup : Obligations.SbxSubstitutesOneGroup := by
  refine ⟨encodingA_sbx, fun k => refuses_of_gated (exec_sbx k), fun s k hs hk => ?_, fun s k hs hk => ?_⟩
  · have hgroup : groupQuad (sboxGroup k s.S) k = sbox (groupQuad s.S k) := by
      rw [groupQuad_sboxGroup s.S k hk, if_pos rfl]
    exact ⟨_, exec_sbx_legal hk hs, fun _ _ => getLsbD_lane_of_groupQuad hgroup,
      fun _ => lane_sboxGroup_of_ne s.S, rfl⟩
  · exact raises_of_checkOf (exec_sbx k) hs (by simpa [checkOf, groupFault] using hk)

/-- Settles O26: every group takes the S-box outputs of its own lanes. -/
theorem sblSubstitutesAllGroups : Obligations.SblSubstitutesAllGroups :=
  ⟨encodingZ_sbl, refuses_of_gated exec_sbl, fun s hs =>
    ⟨_, exec_sbl_legal hs, fun _ _ _ hk => getLsbD_lane_of_groupQuad (groupQuad_sboxAll s.S hk), rfl⟩⟩

/-! ## The laws of the S-box layer (R126) -/

/-- The S-box on the groups of a list, one after another. -/
def sboxGroups : List Nat → Lanes → Lanes
  | [], L => L
  | k :: order, L => sboxGroups order (sboxGroup k L)

/-- Groups are disjoint, so each group of a list without repeats is substituted once, whatever the order. -/
theorem groupQuad_sboxGroups {order : List Nat} (hnodup : order.Nodup) (L : Lanes) {m : Nat} (hm : m ≤ 15) :
    groupQuad (sboxGroups order L) m = if m ∈ order then sbox (groupQuad L m) else groupQuad L m := by
  induction order generalizing L with
  | nil => rfl
  | cons k order ih =>
    obtain ⟨hk, hrest⟩ := List.nodup_cons.1 hnodup
    rw [sboxGroups, ih hrest, groupQuad_sboxGroup L k hm]
    by_cases hmk : m = k
    · simp [hmk, hk]
    · simp [hmk]

theorem sboxGroups_eq_sboxAll {order : List Nat} (h : order.Perm (List.range 16)) (L : Lanes) :
    sboxGroups order L = sboxAll L :=
  lanes_ext_groups fun k hk => by
    have hmem : k ∈ order := h.mem_iff.2 (List.mem_range.2 (by omega))
    rw [groupQuad_sboxGroups (h.nodup_iff.2 List.nodup_range) L hk, if_pos hmem, groupQuad_sboxAll L hk]

/-- A nonempty run of `SBX` commands substitutes its groups in turn and answers `OK`. -/
theorem execList_sbx (order : List Nat) {k : Nat} {s : State} (hs : s.err = none) (hlegal : ∀ m ∈ k :: order, m ≤ 15) :
    execList ((k :: order).map .sbx) s = .next (respond .ok { s with S := sboxGroups (k :: order) s.S }) := by
  induction order generalizing k s with
  | nil => exact execList_cons (exec_sbx_legal (hlegal k (by simp)) hs) []
  | cons m order ih =>
    obtain ⟨hk, hrest⟩ := List.forall_mem_cons.1 hlegal
    rw [List.map_cons, execList_cons (exec_sbx_legal hk hs)]
    exact ih (s := respond .ok { s with S := sboxGroup k s.S }) hs hrest

theorem execList_sbx_eq_sbl {order : List Nat} (h : order.Perm (List.range 16)) {s : State} (hs : s.err = none) :
    execList (order.map .sbx) s = exec .sbl s := by
  have hlegal : ∀ m ∈ order, m ≤ 15 := fun m hm => Nat.le_of_lt_succ (List.mem_range.1 (h.mem_iff.1 hm))
  cases order with
  | nil => simpa using h.length_eq
  | cons k order => rw [execList_sbx order hs hlegal, sboxGroups_eq_sboxAll h, exec_sbl_legal hs, sboxLayer]

theorem nibble_row_sboxAll (L : Lanes) {j k : Nat} (hj : j < 64) (hk : k < 16) :
    nibble (row (sboxAll L) j) k = sboxEntry (nibble (row L j) k) := by
  rw [nibble_row _ j hk, nibble_row L j hk, groupQuad_sboxAll L (by omega), quadValue_sbox _ hj]

theorem sboxEntry_injective : Function.Injective sboxEntry := by
  have hinj : ∀ v w, sboxEntry v = sboxEntry w → v = w := by decide
  exact fun v w => hinj v w

theorem sbox_injective : Function.Injective sbox := fun x y h =>
  quad_ext fun j hj => sboxEntry_injective (by rw [← quadValue_sbox x hj, h, quadValue_sbox y hj])

theorem sboxAll_injective : Function.Injective sboxAll := fun L M h =>
  lanes_ext_groups fun k hk => sbox_injective (by rw [← groupQuad_sboxAll L hk, h, groupQuad_sboxAll M hk])

/-- Four lane-words have finitely many values, by their values at the bit positions. -/
theorem finite_quad : Finite Quad :=
  Finite.of_injective (fun (x : Quad) (j : Fin 64) => quadValue x j) fun _ _ h =>
    quad_ext fun j hj => congrFun h ⟨j, hj⟩

theorem finite_lanes : Finite Lanes :=
  Finite.of_injective (fun (L : Lanes) (i : Fin 64) => lane L i) fun _ _ h => lanes_ext fun i hi => congrFun h ⟨i, hi⟩

/-- Settles O27: group by group for the order, bit position by bit position for the table; an injection of a finite set
into itself is a bijection. -/
theorem sblIsSbxInAnyOrder : Obligations.SblIsSbxInAnyOrder :=
  have := finite_quad
  have := finite_lanes
  ⟨fun _ _ hs h => execList_sbx_eq_sbl h hs,
    fun s hs => ⟨_, exec_sbl_legal hs, fun _ _ => nibble_row_sboxAll s.S⟩,
    ⟨Finite.injective_iff_bijective.1 sboxEntry_injective, by decide⟩,
    Finite.injective_iff_bijective.1 sbox_injective, Finite.injective_iff_bijective.1 sboxAll_injective⟩

end Sys2Proof.Proofs
end

section
/-! PROOF. The family 42_round_function.md. Each command of the round pipeline completes with a named effect; in row view
the effects are those of the ordinary cipher (R146, R153), and a list of commands is followed effect by effect. -/

namespace Sys2Proof.Proofs

open Sys2Proof.Machine

/-! ## A gated command that completes, and the check of the commands that name a key block -/

theorem completes_of_checkOf {i : Instr} (hexec : ∀ s, exec i s = gated (checkOf i s) (answerOf i s) (effectOf i s) s)
    {s : State} (hs : s.err = none) (hcheck : checkOf i s = none) :
    exec i s = .next (respond (answerOf i s) (effectOf i s)) := by
  rw [hexec, hcheck, gated_done hs]

/-- 60_exceptions.md R223, R227: the range is checked before the key. -/
theorem blockCheck_of_out {r : Nat} {s : State} (hr : s.rounds.toNat < r) :
    firstFault (blockFault r s) (keyFault s) = some .badIndex := by
  simp [blockFault, hr]

theorem blockCheck_of_noKey {r : Nat} {s : State} (hr : r ≤ s.rounds.toNat) (hkey : s.kvalid = false) :
    firstFault (blockFault r s) (keyFault s) = some .keyInvalid := by
  simp [blockFault, keyFault, Nat.not_lt.2 hr, hkey]

theorem blockCheck_of_legal {r : Nat} {s : State} (hr : r ≤ s.rounds.toNat) (hkey : s.kvalid = true) :
    firstFault (blockFault r s) (keyFault s) = none := by
  simp [blockFault, keyFault, hr, hkey]

theorem exec_ak_legal {r : Nat} {s : State} (hs : s.err = none) (hr : r ≤ s.rounds.toNat) (hkey : s.kvalid = true) :
    exec (.ak r) s = .next (respond .ok (mixKey r s)) :=
  completes_of_checkOf (exec_ak r) hs (blockCheck_of_legal hr hkey)

theorem exec_rnd_legal {r : Nat} {s : State} (hs : s.err = none) (hr : r ≤ s.rounds.toNat) (hkey : s.kvalid = true) :
    exec (.rnd r) s = .next (respond .ok (roundWith r s)) :=
  completes_of_checkOf (exec_rnd r) hs (blockCheck_of_legal hr hkey)

theorem exec_pl_legal {s : State} (hs : s.err = none) : exec .pl s = .next (respond .ok (permLayer s)) :=
  completes_of_checkOf exec_pl hs rfl

theorem exec_enc_legal {s : State} (hs : s.err = none) (hkey : s.kvalid = true) :
    exec .enc s = .next (respond .ok (encrypt s)) :=
  completes_of_checkOf exec_enc hs (by simp [checkOf, keyFault, hkey])

/-! ## Key mixing (R140, R141) -/

theorem encodingA_ak : EncodingA 0x33 .ak :=
  encodingA_of_decode (by decide) fun w hw => by simp only [decode, hw]

/-- Exclusive-or with the same key word twice cancels. -/
theorem mixKey_mixKey_S (r : Nat) (s : State) : (mixKey r (mixKey r s)).S = s.S :=
  lanes_ext fun i hi => by
    rw [lane_mixKey r _ hi, lane_mixKey r s hi, mixKey_K, BitVec.xor_assoc, BitVec.xor_self, BitVec.xor_zero]

/-- Settles O28, lane by lane and row by row; the second `AK` runs in the state the first left. -/
theorem akMixesOneBlock : Obligations.AkMixesOneBlock := by
  refine ⟨encodingA_ak, fun r => refuses_of_gated (exec_ak r), fun s r hs hr hkey => ?_,
    fun s r hs hr => raises_of_checkOf (exec_ak r) hs (blockCheck_of_out hr),
    fun s r hs hr hkey => raises_of_checkOf (exec_ak r) hs (blockCheck_of_noKey hr hkey)⟩
  have hagain : exec (.ak r) (respond .ok (mixKey r s)) = .next (respond .ok (mixKey r (respond .ok (mixKey r s)))) :=
    exec_ak_legal hs hr hkey
  exact ⟨_, exec_ak_legal hs hr hkey, fun _ => lane_mixKey r s, fun j _ => row_mixKey r s j, rfl, _, hagain,
    mixKey_mixKey_S r s⟩

/-! ## The permutation (R142, R145) -/

theorem permIndex_lt {i : Nat} (hi : i < 64) : permIndex i < 64 := by
  rw [permIndex]; omega

theorem permIndex_group {k b : Nat} (hb : b < 4) : permIndex (4 * k + b) = 16 * b + k := by
  rw [permIndex]; omega

theorem permIndex_eq_mod {i : Nat} (hi : i ≤ 62) : permIndex i = 16 * i % 63 := by
  rw [permIndex]; omega

/-- `64 = 4 ^ 3`: each application turns the three base-4 digits of the index by one place. -/
theorem permIndex_cubed {i : Nat} (hi : i < 64) : permIndex (permIndex (permIndex i)) = i := by
  simp only [permIndex]; omega

theorem permIndex_reverse {i : Nat} (hi : i < 64) : permIndex (63 - i) = 63 - permIndex i := by
  simp only [permIndex]; omega

theorem permIndex_eq_self_iff {i : Nat} (hi : i < 64) : permIndex i = i ↔ i = 0 ∨ i = 21 ∨ i = 42 ∨ i = 63 := by
  rw [permIndex]; omega

theorem permIndex_injective {i j : Nat} (hi : i < 64) (hj : j < 64) (h : permIndex i = permIndex j) : i = j := by
  rw [← permIndex_cubed hi, h, permIndex_cubed hj]

/-! ## The permutation layer (R143, R144, R145) -/

theorem encodingZ_pl : EncodingZ 0x32 .pl :=
  encodingZ_of_decode (by decide) fun w hw => by simp only [decode, hw]

/-- The lane at `i` goes to `P(i)`. -/
theorem lane_permLanes_permIndex (L : Lanes) {i : Nat} (hi : i < 64) : lane (permLanes L) (permIndex i) = lane L i := by
  have hback : 4 * (permIndex i % 16) + permIndex i / 16 = i := by rw [permIndex]; omega
  rw [lane_permLanes L (permIndex_lt hi), hback]

theorem lane_permLanes_group (L : Lanes) {k b : Nat} (hk : k < 16) (hb : b < 4) :
    lane (permLanes L) (16 * b + k) = lane L (4 * k + b) := by
  rw [← permIndex_group hb, lane_permLanes_permIndex L (by omega)]

theorem getLsbD_row_permLanes (L : Lanes) {i : Nat} (hi : i < 64) (j : Nat) :
    (row (permLanes L) j).getLsbD (permIndex i) = (row L j).getLsbD i := by
  rw [getLsbD_row _ j (permIndex_lt hi), lane_permLanes_permIndex L hi, getLsbD_row L j hi]

theorem permLanes_cubed (L : Lanes) : permLanes (permLanes (permLanes L)) = L :=
  lanes_ext fun i hi => by
    have h1 := permIndex_lt hi
    have hmoved : lane (permLanes (permLanes (permLanes L))) (permIndex (permIndex (permIndex i))) = lane L i := by
      rw [lane_permLanes_permIndex _ (permIndex_lt h1), lane_permLanes_permIndex _ h1, lane_permLanes_permIndex L hi]
    rwa [permIndex_cubed hi] at hmoved

/-- Moving whole lanes commutes with what acts on each lane alone. -/
theorem permLanes_lanewise (f : Word → Word → Word) (L W : Lanes) :
    permLanes (lanesOf fun i => f (lane L i) (lane W i)) =
      lanesOf fun i => f (lane (permLanes L) i) (lane (permLanes W) i) :=
  lanes_ext fun m hm => by
    have hsource : 4 * (m % 16) + m / 16 < 64 := by omega
    rw [lane_permLanes _ hm, lane_lanesOf, lane_lanesOf, if_pos hm, if_pos hsource, lane_permLanes L hm,
      lane_permLanes W hm]

theorem execList_pl_pl_pl {s : State} (hs : s.err = none) :
    ∃ t, execList [.pl, .pl, .pl] s = .next t ∧ t.S = s.S := by
  have hsecond := exec_pl_legal (s := respond .ok (permLayer s)) hs
  have hthird := exec_pl_legal (s := respond .ok (permLayer (respond .ok (permLayer s)))) hs
  rw [execList_cons (exec_pl_legal hs), execList_cons hsecond, execList_cons hthird]
  exact ⟨_, rfl, permLanes_cubed s.S⟩

/-- Settles O29: `PL` leaves the moved lanes in `S` and in `T`. -/
theorem plMovesLanes : Obligations.PlMovesLanes :=
  ⟨encodingZ_pl, refuses_of_gated exec_pl, fun s hs =>
    ⟨_, exec_pl_legal hs, fun _ _ => lane_permLanes_group s.S,
      fun _ j hi _ => ⟨lane_permLanes_permIndex s.S hi, getLsbD_row_permLanes s.S hi j⟩, rfl, rfl⟩⟩

/-- Settles O30: the laws of `P` by arithmetic, those of the layer lane by lane. -/
theorem permutationLaws : Obligations.PermutationLaws :=
  ⟨fun _ _ _ => permIndex_group, fun _ => permIndex_eq_mod, rfl,
    fun _ hi => ⟨permIndex_lt hi, permIndex_cubed hi, permIndex_reverse hi, permIndex_eq_self_iff hi⟩,
    fun _ _ => permIndex_injective, fun _ => execList_pl_pl_pl, permLanes_lanewise⟩

/-! ## One round (R146, R147) -/

theorem encodingA_rnd : EncodingA 0x34 .rnd :=
  encodingA_of_decode (by decide) fun w hw => by simp only [decode, hw]

theorem execList_ak_sbl_pl {r : Nat} {s : State} (hs : s.err = none) (hr : r ≤ s.rounds.toNat)
    (hkey : s.kvalid = true) : execList [.ak r, .sbl, .pl] s = .next (respond .ok (roundWith r s)) := by
  have hsbl := exec_sbl_legal (s := respond .ok (mixKey r s)) hs
  have hpl := exec_pl_legal (s := respond .ok (sboxLayer (respond .ok (mixKey r s)))) hs
  rw [execList_cons (exec_ak_legal hs hr hkey), execList_cons hsbl, execList_cons hpl]
  rfl

/-- Settles O31: the three commands one after another, and in row view one round of the ordinary cipher. -/
theorem rndIsOneRound : Obligations.RndIsOneRound :=
  ⟨encodingA_rnd, fun r => refuses_of_gated (exec_rnd r),
    fun s r hs hr hkey => ⟨_, exec_rnd_legal hs hr hkey, execList_ak_sbl_pl hs hr hkey,
      fun _ => row_roundWith r s, rfl, rfl⟩,
    fun _ r hs hr => raises_of_checkOf (exec_rnd r) hs (blockCheck_of_out hr),
    fun _ r hs hr hkey => raises_of_checkOf (exec_rnd r) hs (blockCheck_of_noKey hr hkey)⟩

/-! ## The whole encryption (R148, R149, R151, R153) -/

theorem encodingZ_enc : EncodingZ 0x35 .enc :=
  encodingZ_of_decode (by decide) fun w hw => by simp only [decode, hw]

theorem roundsUpTo_err (n : Nat) (s : State) : (roundsUpTo n s).err = s.err := by rw [roundsUpTo_frame]

theorem roundsUpTo_rounds (n : Nat) (s : State) : (roundsUpTo n s).rounds = s.rounds := by rw [roundsUpTo_frame]

theorem roundsUpTo_kvalid (n : Nat) (s : State) : (roundsUpTo n s).kvalid = s.kvalid := by rw [roundsUpTo_frame]

/-- `RND 0, ..., RND (n - 1)` do the rounds below `n`, and the rest of the list follows. The response is left open:
with no round it is the one before. -/
theorem execList_rnds {n : Nat} {s : State} (hs : s.err = none) (hn : n ≤ s.rounds.toNat) (hkey : s.kvalid = true)
    (rest : List Instr) :
    ∃ resp, execList ((List.range n).map .rnd ++ rest) s = execList rest { roundsUpTo n s with resp := resp } := by
  induction n generalizing rest with
  | zero => exact ⟨s.resp, rfl⟩
  | succ n ih =>
    obtain ⟨resp, hearlier⟩ := ih (by omega) (.rnd n :: rest)
    have hround := exec_rnd_legal (r := n) (s := { roundsUpTo n s with resp := resp })
      (by rwa [roundsUpTo_err]) (by rw [roundsUpTo_rounds]; omega) (by rwa [roundsUpTo_kvalid])
    refine ⟨some .ok, ?_⟩
    rw [List.range_succ, List.map_append, List.append_assoc]
    exact hearlier.trans (execList_cons hround rest)

theorem execList_rnds_ak {s : State} (hs : s.err = none) (hkey : s.kvalid = true) :
    execList ((List.range s.rounds.toNat).map .rnd ++ [.ak s.rounds.toNat]) s = .next (respond .ok (encrypt s)) := by
  obtain ⟨resp, hrounds⟩ := execList_rnds hs le_rfl hkey [.ak s.rounds.toNat]
  have hlast := exec_ak_legal (r := s.rounds.toNat) (s := { roundsUpTo s.rounds.toNat s with resp := resp })
    (by rwa [roundsUpTo_err]) (by rw [roundsUpTo_rounds]) (by rwa [roundsUpTo_kvalid])
  exact hrounds.trans (execList_cons hlast [])

/-- Settles O32, by induction on the number of rounds. -/
theorem encIsAllRounds : Obligations.EncIsAllRounds := by
  refine ⟨encodingZ_enc, refuses_of_gated exec_enc, fun s hs hkey => ?_,
    fun s hs hkey => raises_of_checkOf exec_enc hs (by simp [checkOf, keyFault, hkey])⟩
  refine ⟨_, exec_enc_legal hs hkey, execList_rnds_ak hs hkey, ?_⟩
  rw [encrypt_frame]
  rfl

theorem encrypt_of_zeroRounds {s : State} (h : s.rounds = 0) : encrypt s = mixKey 0 s := by
  rw [encrypt, h]
  rfl

theorem exec_enc_of_zeroRounds {s : State} (h : s.rounds = 0) : exec .enc s = exec (.ak 0) s := by
  have hrange : blockFault 0 s = none := by simp [blockFault]
  rw [exec_enc, exec_ak, hrange, firstFault_none, encrypt_of_zeroRounds h]

/-- Settles O33: with no round an encryption is its last key mixing, with block 0. -/
theorem encWithZeroRounds : Obligations.EncWithZeroRounds := by
  refine ⟨fun s h => exec_enc_of_zeroRounds h, fun s h hs hkey => ?_⟩
  refine ⟨_, exec_enc_legal hs hkey, fun i hi => ?_, fun i j hi hj => ?_⟩
  · rw [respond_S, encrypt_of_zeroRounds h, lane_mixKey 0 s hi, keyWord, Nat.mul_zero, Nat.zero_add]
  · rw [respond_S, encrypt_of_zeroRounds h, row_mixKey, BitVec.getLsbD_xor]

/-- Settles O34: each row goes through the ordinary cipher alone, so it depends on its own word and round keys only. -/
theorem encRefinesOrdinaryCipher : Obligations.EncRefinesOrdinaryCipher := by
  refine ⟨fun s hs hkey => ⟨_, exec_enc_legal hs hkey, fun _ => row_encrypt s⟩, ?_⟩
  intro s s' t t' j hj hs hs' hkey hkey' hrounds hrow hkeys ht ht'
  rw [exec_enc_legal hs hkey] at ht
  rw [exec_enc_legal hs' hkey'] at ht'
  cases ht
  cases ht'
  rw [respond_S, respond_S, row_encrypt s hj, row_encrypt s' hj, ← hrounds, ← hrow]
  exact rowEncrypt_congr hkeys _

/-! ## The data path as a function of `S`, `ROUNDS` and the key blocks named (R152) -/

theorem answerOf_of_isPipeline {i : Instr} (hi : isPipeline i = true) (s : State) : answerOf i s = .ok := by
  cases i with
  | sbx | sbl | pl | ak | rnd | enc => rfl
  | _ => cases hi

theorem checkOf_congr_of_isPipeline {i : Instr} (hi : isPipeline i = true) {s s' : State} (hrounds : s.rounds = s'.rounds)
    (hkvalid : s.kvalid = s'.kvalid) : checkOf i s = checkOf i s' := by
  cases i with
  | sbx | sbl | pl => rfl
  | ak r | rnd r => exact blockFault_keyFault_congr r s s' hrounds hkvalid
  | enc => rw [checkOf, checkOf, keyFault, keyFault, hkvalid]
  | _ => cases hi

theorem effectOf_frame_of_isPipeline {i : Instr} (hi : isPipeline i = true) (s : State) :
    effectOf i s = { s with S := (effectOf i s).S, T := (effectOf i s).T } := by
  cases i with
  | sbx | sbl | pl | ak | rnd => rfl
  | enc => exact encrypt_frame s
  | _ => cases hi

/-- The lanes after a data-path command: those it writes agree bit by bit, because it is lane-parallel, and the others are
as they were. -/
theorem lanes_eq_of_isPipeline {i : Instr} {s s' t t' : State} (hi : isPipeline i = true) (hs : s.err = none)
    (hs' : s'.err = none) (hkvalid : s.kvalid = s'.kvalid) (hrounds : s.rounds = s'.rounds) (hlanes : s.S = s'.S)
    (hkeys : ∀ r n, usesBlock i s.rounds.toNat r = true → n < 64 →
      memRead s.K (64 * r + n) = memRead s'.K (64 * r + n))
    (ht : exec i s = .next t) (ht' : exec i s' = .next t') : t.S = t'.S := by
  obtain ⟨hkept, -⟩ := laneRegisterTable
  refine lanes_ext fun n hn => ?_
  cases hw : writesLane i n with
  | false => rw [hkept i s t ht n hn hw, hkept i s' t' ht' n hn hw, hlanes]
  | true =>
    refine word_ext fun j hj => ?_
    obtain ⟨hwritten, -⟩ := laneParallel_of_isPipeline hi s s' t t' j hj hs hs' hrounds hkvalid
      (fun m _ _ => by rw [hlanes]) (fun r m hr hm => by rw [hkeys r m hr hm]) ht ht'
    exact hwritten n hn hw

theorem resp_eq_of_isPipeline {i : Instr} {s s' t t' : State} (hi : isPipeline i = true) (hs : s.err = none)
    (hs' : s'.err = none) (hkvalid : s.kvalid = s'.kvalid) (hrounds : s.rounds = s'.rounds)
    (ht : exec i s = .next t) (ht' : exec i s' = .next t') : t.resp = t'.resp := by
  obtain ⟨u, hu, hresp⟩ := exec_related (fun t t' => t.resp = t'.resp) ht (hs'.trans hs.symm)
    (checkOf_congr_of_isPipeline hi hrounds hkvalid).symm
    (fun _ => by rw [respond_resp, respond_resp, answerOf_of_isPipeline hi, answerOf_of_isPipeline hi]) fun _ _ => rfl
  cases ht'.symm.trans hu
  exact hresp

/-- Settles O36: the lanes by lane-parallelism at every bit position, the response by the check. -/
theorem pipelineIsFunctionOfStateAndKey : Obligations.PipelineIsFunctionOfStateAndKey := by
  constructor
  · intro i s s' t t' hi hs hs' hkvalid hrounds hlanes hkeys ht ht'
    exact ⟨lanes_eq_of_isPipeline hi hs hs' hkvalid hrounds hlanes hkeys ht ht',
      resp_eq_of_isPipeline hi hs hs' hkvalid hrounds ht ht'⟩
  · intro i s t hi ht hok
    obtain ⟨err, code, rfl⟩ | ⟨-, rfl⟩ := exec_stopsOrCompletes ht
    · cases hok
    · rw [answerOf_of_isPipeline hi, effectOf_frame_of_isPipeline hi]
      rfl

end Sys2Proof.Proofs
end

section
/-! PROOF. The family 43_key_strategies.md. `KGEN` writes one list of words from `K[0]` on, so what it does to the key
memory is what that list holds at each index: the draws in order, or block 0 repeated. -/

namespace Sys2Proof.Proofs

open Sys2Proof.Machine

/-! ## The words written, by index (R172, R173, R175) -/

/-- A list repeated `m` times reads, at position `i` of any copy, as the list itself. -/
theorem getD_flatten_replicate {α : Type} {l : List α} {m r i : Nat} (d : α) (hr : r < m) (hi : i < l.length) :
    (List.replicate m l).flatten.getD (l.length * r + i) d = l.getD i d := by
  induction m generalizing r with
  | zero => omega
  | succ m ih =>
    rw [List.replicate_succ, List.flatten_cons]
    cases r with
    | zero => rw [Nat.mul_zero, Nat.zero_add, List.getD_append _ _ _ _ hi]
    | succ r =>
      have hrest : l.length * (r + 1) + i = l.length + (l.length * r + i) := by rw [Nat.mul_succ]; omega
      rw [hrest, List.getD_append_right _ _ _ _ (Nat.le_add_right ..), Nat.add_sub_cancel_left, ih (by omega)]

theorem getD_drawMany {s : State} {m n : Nat} (hn : n < m) : (drawMany m s).1.getD n 0 = nthDraw s n := by
  simp [drawMany_spec, hn]

theorem getD_keyWords_of_independent {s : State} (hmode : s.keymode = .independent) {n : Nat}
    (hn : n < 64 * (s.rounds.toNat + 1)) : (keyWords s).getD n 0 = nthDraw s n := by
  simp only [keyWords, hmode]
  exact getD_drawMany hn

theorem getD_keyWords_of_constant {s : State} (hmode : s.keymode = .constant) {r i : Nat} (hr : r ≤ s.rounds.toNat)
    (hi : i < 64) : (keyWords s).getD (64 * r + i) 0 = nthDraw s i := by
  have hcopy := getD_flatten_replicate (l := (drawMany 64 s).1) (0 : Word) (Nat.lt_succ_of_le hr)
    (by rwa [drawMany_length])
  rw [drawMany_length, getD_drawMany hi] at hcopy
  simpa only [keyWords, hmode] using hcopy

/-! ## The key memory after `KGEN` -/

theorem memRead_generateKeys (s : State) {n : Nat} (hn : n < 64 * (s.rounds.toNat + 1)) :
    memRead (generateKeys s).K n = (keyWords s).getD n 0 := by
  rw [generateKeys_spec, memRead_memFill, keyWords_length, if_pos hn]

theorem memRead_generateKeys_above (s : State) {n : Nat} (hn : 64 * (s.rounds.toNat + 1) ≤ n) :
    memRead (generateKeys s).K n = memRead s.K n := by
  rw [generateKeys_spec, memRead_memFill, keyWords_length, if_neg (Nat.not_lt.2 hn)]

/-- Everything but the words written: the draws are consumed, and `KVALID` is set. -/
theorem generateKeys_frame {s : State} {count : Nat} (hcount : drawCount s = count) :
    generateKeys s = { s with
      K := (generateKeys s).K, kvalid := true
      random := s.random.drop count, drawn := s.drawn + (count - s.random.length) } := by
  rw [generateKeys_spec, hcount]

/-! ## The command `KGEN` (R171) -/

theorem encodingZ_kgen : EncodingZ 0x40 .kgen :=
  encodingZ_of_decode (by decide) fun w hw => by simp only [decode, hw]

theorem exec_kgen_legal {s : State} (hs : s.err = none) : exec .kgen s = .next (respond .ok (generateKeys s)) :=
  (exec_kgen s).trans (gated_done hs ..)

/-- Settles O37, by what the list of words written holds at each index. -/
theorem kgenFillsKeyBlocks : Obligations.KgenFillsKeyBlocks := by
  refine ⟨encodingZ_kgen, refuses_of_gated exec_kgen, fun s hs hmode => ?_, fun s hs hmode => ?_⟩
  · have hcount : drawCount s = 64 * (s.rounds.toNat + 1) := by simp only [drawCount, hmode]
    refine ⟨_, exec_kgen_legal hs, fun n hn => ?_, fun _ => memRead_generateKeys_above s,
      congrArg (respond .ok) (generateKeys_frame hcount)⟩
    exact (memRead_generateKeys s hn).trans (getD_keyWords_of_independent hmode hn)
  · have hcount : drawCount s = 64 := by simp only [drawCount, hmode]
    refine ⟨_, exec_kgen_legal hs, fun r i hr hi => ?_, fun _ => memRead_generateKeys_above s,
      congrArg (respond .ok) (generateKeys_frame hcount)⟩
    exact (memRead_generateKeys s (by omega)).trans (getD_keyWords_of_constant hmode hr hi)

end Sys2Proof.Proofs
end

section
/-! PROOF. The family 44_access_and_control.md. Each command is read off its row of the decoder, its check and its effect;
`RST` and `RDC`, which a latched fault does not stop, are followed on their own. What the data word is for (R200) is said of
all commands at once. -/

namespace Sys2Proof.Proofs

open Sys2Proof.Machine

/-! ## `NOP` (R190) -/

theorem encodingZ_nop : EncodingZ 0x00 .nop :=
  encodingZ_of_decode (by decide) fun w hw => by simp only [decode, hw]

/-- Settles O11: `NOP` has neither a check nor an effect. -/
theorem nopDoesNothing : Obligations.NopDoesNothing :=
  ⟨encodingZ_nop, refuses_of_gated exec_nop, fun _ hs => completes_of_checkOf exec_nop hs rfl⟩

/-! ## `RST` (R191) -/

theorem encodingZ_rst : EncodingZ 0x01 .rst :=
  encodingZ_of_decode (by decide) fun w hw => by simp only [decode, hw]

/-- 60_exceptions.md R230: a command other than `RST` keeps the latched code, `RDC` included. -/
theorem exec_keeps_latched {i : Instr} {s t : State} {f : FaultCode} (hi : i ≠ .rst) (hf : s.err = some f)
    (h : exec i s = .next t) : t.err = some f := by
  rcases exec_gated_or_served i with rfl | ⟨c, rfl⟩ | hgated
  · exact absurd rfl hi
  · rcases Nat.lt_or_ge 3 c with hc | hc
    · rw [exec_rdc_out c s hc] at h
      cases h
      rw [raise_err, hf, Option.getD_some]
    · rw [exec_rdc_in c s hc] at h
      cases h
      exact hf
  · rw [hgated, gated_faulted hf] at h
    cases h
    exact hf

/-- Settles O12: the soft reset is the effect of `RST` in every state, and every other command keeps a latched code. -/
theorem rstClearsUnit : Obligations.RstClearsUnit := by
  refine ⟨encodingZ_rst, fun s => ⟨_, exec_rst s, fun i _ => ⟨lane_zeroLanes i, lane_zeroLanes i⟩, rfl,
    fun _ _ _ => rfl⟩, fun i s t h hfault hcleared => ?_⟩
  obtain ⟨f, hf⟩ := Option.ne_none_iff_exists'.1 hfault
  by_contra hi
  have hkept : t.err = some f := exec_keeps_latched hi hf h
  cases hcleared.symm.trans hkept

/-! ## `WRS` and `RDS` (R192, R193) -/

theorem laneFault_of_legal {i : Nat} (hi : i ≤ 63) : laneFault i = none := by simpa [laneFault] using hi

theorem laneFault_of_out {i : Nat} (hi : 63 < i) : laneFault i = some .badIndex := by simpa [laneFault] using hi

theorem encodingA_wrs : EncodingA 0x10 .wrs :=
  encodingA_of_decode (by decide) fun w hw => by simp only [decode, hw]

theorem encodingA_rds : EncodingA 0x11 .rds :=
  encodingA_of_decode (by decide) fun w hw => by simp only [decode, hw]

/-- Settles O13: the effect is a write of one lane. -/
theorem wrsWritesOneLane : Obligations.WrsWritesOneLane := by
  refine ⟨encodingA_wrs, fun i => refuses_of_gated (exec_wrs i), fun s i hs hi => ?_,
    fun s i hs hi => raises_of_checkOf (exec_wrs i) hs (laneFault_of_out hi)⟩
  refine ⟨_, completes_of_checkOf (exec_wrs i) hs (laneFault_of_legal hi), ?_, fun j hj => ?_, rfl⟩
  · exact (lane_setLane s.S i s.din i).trans (if_pos ⟨rfl, by omega⟩)
  · exact (lane_setLane s.S i s.din j).trans (if_neg fun hwritten => hj hwritten.1)

/-- Settles O14: the lane is the answer, and there is no effect. -/
theorem rdsReadsOneLane : Obligations.RdsReadsOneLane :=
  ⟨encodingA_rds, fun i => refuses_of_gated (exec_rds i),
    fun _ i hs hi => completes_of_checkOf (exec_rds i) hs (laneFault_of_legal hi),
    fun _ i hs hi => raises_of_checkOf (exec_rds i) hs (laneFault_of_out hi)⟩

/-! ## `RDK` (R194) -/

theorem encodingAB_rdk : EncodingAB 0x12 .rdk :=
  encodingAB_of_decode (by decide) fun w hw => by simp only [decode, hw]

/-- 60_exceptions.md R227: the range of either operand is checked before the key. -/
theorem checkOf_rdk_of_out {r i : Nat} {s : State} (h : s.rounds.toNat < r ∨ 63 < i) :
    checkOf (.rdk r i) s = some .badIndex := by
  by_cases hr : s.rounds.toNat < r
  · simp [checkOf, blockFault, hr]
  · simp [checkOf, blockFault, hr, laneFault_of_out (h.resolve_left hr)]

/-- In range only the key is left to check. -/
theorem checkOf_rdk_of_inRange {r i : Nat} {s : State} (hr : r ≤ s.rounds.toNat) (hi : i ≤ 63) :
    checkOf (.rdk r i) s = keyFault s := by
  simp [checkOf, blockFault, Nat.not_lt.2 hr, laneFault_of_legal hi]

theorem keyFault_of_key {s : State} (hkey : s.kvalid = true) : keyFault s = none := by simp [keyFault, hkey]

theorem keyFault_of_noKey {s : State} (hkey : s.kvalid = false) : keyFault s = some .keyInvalid := by
  simp [keyFault, hkey]

/-- Settles O15: the key word is the answer, there is no effect, and `RDK` is not `KGEN`, the one command that writes a key
word. -/
theorem rdkReadsOneKeyWord : Obligations.RdkReadsOneKeyWord := by
  obtain ⟨hkeepsKey, -⟩ := onlyKgenWritesKey
  exact ⟨encodingAB_rdk, fun r i => refuses_of_gated (exec_rdk r i),
    fun _ r i hs hr hi hkey =>
      completes_of_checkOf (exec_rdk r i) hs ((checkOf_rdk_of_inRange hr hi).trans (keyFault_of_key hkey)),
    fun _ r i hs hout => raises_of_checkOf (exec_rdk r i) hs (checkOf_rdk_of_out hout),
    fun _ r i hs hr hi hkey =>
      raises_of_checkOf (exec_rdk r i) hs ((checkOf_rdk_of_inRange hr hi).trans (keyFault_of_noKey hkey)),
    fun s t r i h => hkeepsKey (.rdk r i) s t nofun h⟩

/-! ## `SETR` and `SETM` (R196, R197) -/

theorem encodingA_setr : EncodingA 0x18 .setr :=
  encodingA_of_decode (by decide) fun w hw => by simp only [decode, hw]

theorem encodingA_setm : EncodingA 0x19 .setm :=
  encodingA_of_decode (by decide) fun w hw => by simp only [decode, hw]

/-- Settles O16: a count up to `MAX_ROUNDS` fits the 8-bit field, so the field holds it as it is. -/
theorem setrSetsRoundCount : Obligations.SetrSetsRoundCount := by
  refine ⟨encodingA_setr, fun n => refuses_of_gated (exec_setr n), fun s n hs hn => ?_,
    fun s n hs hn => raises_of_checkOf (exec_setr n) hs (by simpa [checkOf, roundsFault] using hn)⟩
  have hlegal : checkOf (.setr n) s = none := by simpa [checkOf, roundsFault] using hn
  have hfits : n < 2 ^ 8 := Nat.lt_of_le_of_lt hn s.maxRounds.isLt
  exact ⟨_, completes_of_checkOf (exec_setr n) hs hlegal, (BitVec.toNat_ofNat n 8).trans (Nat.mod_eq_of_lt hfits), rfl⟩

theorem modeNumber_modeOf {m : Nat} (hm : m ≤ 1) : modeNumber (modeOf m) = m := by
  obtain rfl | rfl : m = 0 ∨ m = 1 := by omega
  · rfl
  · rfl

/-- Settles O17: the two operands are the two modes. -/
theorem setmSelectsStrategy : Obligations.SetmSelectsStrategy := by
  refine ⟨encodingA_setm, fun m => refuses_of_gated (exec_setm m), fun s m hs hm => ?_,
    fun s m hs hm => raises_of_checkOf (exec_setm m) hs (by simpa [checkOf, modeFault] using hm)⟩
  have hlegal : checkOf (.setm m) s = none := by simpa [checkOf, modeFault] using hm
  exact ⟨_, completes_of_checkOf (exec_setm m) hs hlegal, modeNumber_modeOf hm, rfl⟩

/-! ## `RDC` (R198) -/

theorem encodingA_rdc : EncodingA 0x1A .rdc :=
  encodingA_of_decode (by decide) fun w hw => by simp only [decode, hw]

theorem errBits_toNat (e : Option FaultCode) : (errBits e).toNat = errNumber e := by
  cases e with
  | none => rfl
  | some f => cases f <;> rfl

theorem modeBits_toNat (m : KeyMode) : (modeBits m).toNat = modeNumber m := by cases m <;> rfl

theorem roundsReg_toNat (s : State) : (roundsReg s).toNat = s.rounds.toNat := by
  rw [roundsReg, toNat_append_mul]
  simp

theorem keymodeReg_toNat (s : State) : (keymodeReg s).toNat = modeNumber s.keymode := by
  rw [keymodeReg, toNat_append_mul, modeBits_toNat]
  simp

theorem statusReg_toNat (s : State) : (statusReg s).toNat = s.kvalid.toNat + 16 * errNumber s.err := by
  simp only [statusReg, toNat_append_mul, errBits_toNat, BitVec.toNat_ofBool, BitVec.ofNat_eq_ofNat,
    BitVec.toNat_ofNat, Nat.zero_mod]
  omega

/-- 10_state.md R29, R30, R31, R33: every register is its fields at their weights. -/
theorem controlReg_toNat {c : Nat} (hc : c ≤ 3) (s : State) : (controlReg c s).toNat = regNumber c s := by
  obtain rfl | rfl | rfl | rfl : c = 0 ∨ c = 1 ∨ c = 2 ∨ c = 3 := by omega
  · exact roundsReg_toNat s
  · exact keymodeReg_toNat s
  · exact statusReg_toNat s
  · exact (capReg_toNat s).trans (Nat.add_comm ..)

/-- Settles O18: a legal number is answered in every state, and any other as `raise` does, which keeps a latched code. -/
theorem rdcReadsControlRegister : Obligations.RdcReadsControlRegister := by
  refine ⟨encodingA_rdc, fun s c hc => ⟨_, exec_rdc_in c s hc, controlReg_toNat hc s⟩, fun s c hs hc => ?_,
    fun s c f hs hc => ?_⟩
  · rw [Raises, exec_rdc_out c s hc, raise, hs, Option.getD_none]
  · rw [exec_rdc_out c s hc, raise, hs, Option.getD_some, ← hs]

/-! ## The data word and the data answered (R200) -/

theorem roundsUpTo_withDin (n : Nat) (s : State) (d : Word) :
    roundsUpTo n { s with din := d } = { roundsUpTo n s with din := d } := by
  induction n with
  | zero => rfl
  | succ n ih =>
    rw [roundsUpTo, ih]
    rfl

theorem generateKeys_withDin (s : State) (d : Word) :
    generateKeys { s with din := d } = { generateKeys s with din := d } := by
  obtain ⟨hwords, hcount⟩ := keyWords_congr (s := s) (s' := { s with din := d }) rfl rfl rfl rfl rfl
  rw [generateKeys_spec, generateKeys_spec, hwords, hcount]

theorem checkOf_withDin (i : Instr) (s : State) (d : Word) : checkOf i { s with din := d } = checkOf i s := by
  cases i <;> rfl

theorem answerOf_withDin (i : Instr) (s : State) (d : Word) : answerOf i { s with din := d } = answerOf i s := by
  cases i <;> rfl

/-- `WRS` alone has an effect that takes the data word. -/
theorem effectOf_withDin {i : Instr} (hi : ∀ n, i ≠ .wrs n) (s : State) (d : Word) :
    effectOf i { s with din := d } = { effectOf i s with din := d } := by
  cases i with
  | wrs n => exact absurd rfl (hi n)
  | enc =>
    rw [effectOf, encrypt, roundsUpTo_withDin]
    rfl
  | kgen => exact generateKeys_withDin s d
  | _ => rfl

theorem exec_withDin {i : Instr} {s t : State} (hi : ∀ n, i ≠ .wrs n) (d : Word) (h : exec i s = .next t) :
    exec i { s with din := d } = .next { t with din := d } := by
  obtain ⟨t', ht', rfl⟩ := exec_related (s' := { s with din := d }) (fun t t' => t' = { t with din := d }) h rfl
    (checkOf_withDin i s d) (fun _ => by rw [answerOf_withDin, effectOf_withDin hi]; rfl) fun _ _ => rfl
  exact ht'

theorem reads_of_answerOf_eq_data {i : Instr} {s : State} {v : Word} (h : answerOf i s = .data v) :
    (∃ n, i = .rds n) ∨ (∃ r n, i = .rdk r n) ∨ ∃ c, i = .rdc c := by
  cases i with
  | rds n => exact .inl ⟨n, rfl⟩
  | rdk r n => exact .inr (.inl ⟨r, n, rfl⟩)
  | rdc c => exact .inr (.inr ⟨c, rfl⟩)
  | _ => cases h

/-- No effect latches a fault: only a check does. -/
theorem effectOf_err_of_none (i : Instr) {s : State} (hs : s.err = none) : (effectOf i s).err = none := by
  cases i with
  | rst => rfl
  | enc => rwa [effectOf, encrypt_frame]
  | kgen => rwa [effectOf, generateKeys_spec]
  | _ => exact hs

/-- A command that leaves a fault latched was refused or raised it, so it answers a code; `RDC` of a register that exists
reads it all the same. -/
theorem answersCode_of_latched {i : Instr} {s t : State} (h : exec i s = .next t) (hfault : t.err ≠ none) :
    (∃ c, t.resp = some (.err c)) ∨ ∃ c, c ≤ 3 ∧ i = .rdc c := by
  rcases exec_gated_or_served i with rfl | ⟨c, rfl⟩ | hgated
  · cases h
    exact absurd rfl hfault
  · rcases Nat.lt_or_ge 3 c with hc | hc
    · rw [exec_rdc_out c s hc] at h
      cases h
      exact .inl ⟨_, rfl⟩
    · exact .inr ⟨c, hc, rfl⟩
  · rw [hgated] at h
    rcases gated_cases (checkOf i s) (answerOf i s) (effectOf i s) s with ⟨c, -, hends⟩ | ⟨f, -, -, hends⟩ |
      ⟨hs, -, hends⟩ <;> rw [hends] at h <;> cases h
    · exact .inl ⟨c, rfl⟩
    · exact .inl ⟨_, rfl⟩
    · exact absurd (effectOf_err_of_none i hs) hfault

/-- Settles O47: by the effects for the data word, by the answers for the data, by the checks for the codes. -/
theorem dataWordsOfCommands : Obligations.DataWordsOfCommands := by
  refine ⟨fun i s t d hi h => exec_withDin hi d h, fun i s t v h hdata => ?_,
    fun i s t h hfault => answersCode_of_latched h hfault⟩
  obtain ⟨err, code, rfl⟩ | ⟨-, rfl⟩ := exec_stopsOrCompletes h
  · cases hdata
  · exact reads_of_answerOf_eq_data (Option.some.inj hdata)

end Sys2Proof.Proofs
end

section
/-! PROOF. The family 60_exceptions.md. With no fault latched a command is decided by its operand check and then by its key
check (R227); with one latched a word answers the code and leaves the rest (R230), so the code stays until a reset
(R231, R232). Units that share nothing are followed one at a time (R236). -/

namespace Sys2Proof.Proofs

open Sys2Proof.Machine

/-! ## Illegal words (R221) -/

/-- Settles O6: a word the decoder accepts matches the row of its command, so one that matches no row is rejected. -/
theorem unmatchedWordIsIllegal : Obligations.UnmatchedWordIsIllegal := by
  intro w hnone
  cases hw : decode w with
  | error e => exact answersIllegal_of_decode hw
  | ok i =>
    have hunmatched : matchesRow (rowOf i) w = false := hnone _ (mem_opcodeTable_iff.2 ⟨i, rfl⟩)
    cases hunmatched.symm.trans (matchesRow_of_decode hw)

/-! ## The order of checks (R222, R223, R224, R227) -/

theorem firstFault_none_right (a : Option FaultCode) : firstFault a none = a := by cases a <;> rfl

/-- The key check of a command: only those that use key material have one (R224). -/
def keyCheck (i : Instr) (s : State) : Option FaultCode := if usesKey i then keyFault s else none

/-- The spec's tables name the faults a command checks for, operands first and the key after them. -/
theorem checkOf_eq_firstFault (i : Instr) (s : State) : checkOf i s = firstFault (operandCheck i s) (keyCheck i s) := by
  cases i with
  | ak | rnd => simp [checkOf, operandCheck, keyCheck, usesKey, blockFault, faultIf]
  | rdk r n =>
    have hrange : firstFault (blockFault r s) (laneFault n) = operandCheck (.rdk r n) s := by
      by_cases hr : s.rounds.toNat < r <;> simp [operandCheck, blockFault, laneFault, faultIf, hr]
    rw [checkOf, hrange]
    rfl
  | mir d src =>
    rw [keyCheck, usesKey, if_neg nofun, firstFault_none_right]
    by_cases hd : 63 < d <;> simp [checkOf, operandCheck, laneFault, faultIf, hd]
  | enc => rfl
  | nop | rst | trn | sbl | pl | kgen => rfl
  | _ =>
    rw [keyCheck, usesKey, if_neg nofun, firstFault_none_right]
    simp [checkOf, operandCheck, laneFault, groupFault, roundsFault, modeFault, regFault, faultIf]

/-- With no fault latched the gate is open, so `RST` and `RDC` go the way of every other command. -/
theorem exec_of_noFault (i : Instr) {s : State} (hs : s.err = none) :
    exec i s = gated (checkOf i s) (answerOf i s) (effectOf i s) s := by
  rcases exec_gated_or_served i with rfl | ⟨c, rfl⟩ | hgated
  · exact (gated_done hs ..).symm
  · rcases Nat.lt_or_ge 3 c with hc | hc
    · have hcheck : checkOf (.rdc c) s = some .badIndex := by simpa [checkOf, regFault] using hc
      rw [exec_rdc_out c s hc, hcheck, gated_raise hs]
    · have hcheck : checkOf (.rdc c) s = none := by simpa [checkOf, regFault] using hc
      rw [exec_rdc_in c s hc, hcheck, gated_done hs]
      rfl
  · exact hgated s

theorem raises_of_noFault {i : Instr} {s : State} {f : FaultCode} (hs : s.err = none) (hcheck : checkOf i s = some f) :
    Raises f i s := by
  rw [Raises, exec_of_noFault i hs, hcheck, gated_raise hs, raise, hs, Option.getD_none]

/-- R230: the commands a faulted unit does not serve are refused. -/
theorem refuses_of_ne_served {i : Instr} (hrst : i ≠ .rst) (hrdc : ∀ c, i ≠ .rdc c) : Refuses i := by
  rcases exec_gated_or_served i with rfl | ⟨c, rfl⟩ | hgated
  · exact absurd rfl hrst
  · exact absurd rfl (hrdc c)
  · exact refuses_of_gated hgated

theorem answerOf_ok_or_data (i : Instr) (s : State) : answerOf i s = .ok ∨ ∃ v, answerOf i s = .data v := by
  cases i with
  | rds | rdk | rdc => exact .inr ⟨_, rfl⟩
  | _ => exact .inl rfl

theorem keyCheck_eq_none {i : Instr} {s : State} (h : usesKey i = true → s.kvalid = true) : keyCheck i s = none := by
  rw [keyCheck]
  split
  next hkey => exact keyFault_of_key (h hkey)
  next => rfl

/-- Settles O40: the gate comes before the check, and the check is the operand check and then the key check. -/
theorem orderOfChecks : Obligations.OrderOfChecks := by
  refine ⟨fun _ _ hw => answersIllegal_of_decode hw, fun w i s hw => by rw [runCommand, hw],
    fun _ hrst hrdc => refuses_of_ne_served hrst hrdc, fun i s f hs hop => raises_of_noFault hs ?_,
    fun i s hs hop hkey hinvalid => raises_of_noFault hs ?_, fun i s hs hop hvalid => ?_⟩
  · rw [checkOf_eq_firstFault, hop, firstFault_some]
  · rw [checkOf_eq_firstFault, hop, firstFault_none, keyCheck, if_pos hkey, keyFault_of_noKey hinvalid]
  · have hcheck : checkOf i s = none := by rw [checkOf_eq_firstFault, hop, firstFault_none, keyCheck_eq_none hvalid]
    refine ⟨respond (answerOf i s) (effectOf i s), ?_, effectOf_err_of_none i hs, ?_⟩
    · rw [exec_of_noFault i hs, hcheck, gated_done hs]
    · simpa using answerOf_ok_or_data i s

/-! ## A faulted unit (R230, R231, R232) -/

/-- A faulted unit answers a word it does not serve with the latched code. -/
theorem runCommand_of_not_served {w : Cmd} {d : Word} (hserved : servedWhileFaulted (.command w d) = false) {s : State}
    {c : FaultCode} (hc : s.err = some c) : runCommand w s = .next (respond (.err c) s) := by
  cases hw : decode w with
  | error e => rw [runCommand, hw]; exact gated_faulted hc ..
  | ok i =>
    have hrst : i ≠ .rst := by rintro rfl; simp [servedWhileFaulted, hw] at hserved
    have hrdc : ∀ n, i ≠ .rdc n := by rintro n rfl; simp [servedWhileFaulted, hw] at hserved
    rw [runCommand, hw]
    exact refuses_of_ne_served hrst hrdc s c hc

theorem stepOf_of_not_served {s : State} {c : FaultCode} {x : Input} {rest : List Input} (hc : s.err = some c)
    (hp : s.pending = x :: rest) (hserved : servedWhileFaulted x = false) :
    ∃ d, stepOf s = respond (.err c) (present d rest s) := by
  cases x with
  | hardReset => cases hserved
  | command w d =>
    refine ⟨d, stepOf_of_step ?_⟩
    rw [step, hp]
    exact runCommand_of_not_served (s := present d rest s) hserved hc

theorem stepsOf_idle (n : Nat) {s : State} (hp : s.pending = []) : stepsOf n s = s := by
  induction n with
  | zero => rfl
  | succ n ih => rw [stepsOf, stepOf_of_step (step_idle hp), ih]

/-- While no word it serves is presented a faulted unit keeps all but the inputs and the response, and the response is
the latched code unless no word has been taken yet. -/
theorem stepsOf_of_not_served (n : Nat) {s : State} {c : FaultCode} (hc : s.err = some c)
    (hserved : ∀ x ∈ s.pending.take n, servedWhileFaulted x = false) :
    stepsOf n s = { s with pending := s.pending.drop n, din := (stepsOf n s).din, resp := (stepsOf n s).resp } ∧
      ((stepsOf n s).resp = some (.err c) ∨ stepsOf n s = s ∧ (n = 0 ∨ s.pending = [])) := by
  induction n generalizing s with
  | zero => exact ⟨rfl, .inr ⟨rfl, .inl rfl⟩⟩
  | succ n ih =>
    cases hp : s.pending with
    | nil =>
      refine ⟨?_, .inr ⟨stepsOf_idle _ hp, .inr rfl⟩⟩
      rw [stepsOf_idle _ hp, List.drop_nil, ← hp]
    | cons x rest =>
      rw [hp, List.take_succ_cons, List.forall_mem_cons] at hserved
      obtain ⟨hx, hrest⟩ := hserved
      obtain ⟨d, hstep⟩ := stepOf_of_not_served hc hp hx
      obtain ⟨hframe, hresp⟩ := ih (s := respond (.err c) (present d rest s)) hc hrest
      rw [stepsOf, hstep]
      refine ⟨hframe, .inl ?_⟩
      obtain hlatched | ⟨hheld, -⟩ := hresp
      · exact hlatched
      · rw [hheld, respond_resp]

/-- Settles O41: after a step on a presented word the response is the latched code. -/
theorem faultedUnitIsStopped : Obligations.FaultedUnitIsStopped := by
  intro n s c hc hserved
  obtain ⟨hframe, hresp⟩ := stepsOf_of_not_served n hc hserved
  refine ⟨hframe, fun hn hne => hresp.resolve_right ?_⟩
  rintro ⟨-, hzero | hempty⟩
  · omega
  · exact hne hempty

/-- Settles O42: of all a step can do only the two resets clear a latched code. -/
theorem firstFaultStaysLatched : Obligations.FirstFaultStaysLatched := by
  intro s t c hc h
  rcases step_cases h with ⟨-, rfl⟩ | ⟨lanes, scratch, ws, rest, hp, rfl⟩ | ⟨w, d, rest, e, -, -, hi⟩ |
    ⟨w, d, rest, i, hp, hw, hi⟩
  · exact .inl hc
  · exact .inr ⟨rfl, .inr ⟨lanes, scratch, ws, rest, hp⟩⟩
  · obtain ⟨err, resp, rfl, hkept, -⟩ := illegalCommand_next hi
    exact .inl (hkept c hc)
  · by_cases hrst : i = .rst
    · subst hrst
      cases hi
      exact .inr ⟨rfl, .inl ⟨w, d, rest, hp, hw⟩⟩
    · exact .inl (exec_keeps_latched (s := present d rest s) hrst hc hi)

/-! ## Several units (R236) -/

theorem getElem?_stepUnit (k j : Nat) (y : System) :
    (stepUnit j y)[k]? = if j = k then y[k]?.map stepOf else y[k]? := by
  rw [stepUnit, List.getElem?_modify]
  split <;> simp

theorem getElem?_runSchedule (schedule : List Nat) (y : System) (k : Nat) :
    (runSchedule schedule y)[k]? = y[k]?.map (stepsOf (schedule.count k)) := by
  induction schedule generalizing y with
  | nil => exact Option.map_id'.symm
  | cons j ks ih =>
    rw [runSchedule, ih, getElem?_stepUnit]
    by_cases hj : j = k
    · rw [if_pos hj, hj, List.count_cons_self, Option.map_map]
      rfl
    · rw [if_neg hj, List.count_cons_of_ne hj]

/-- Settles O51: a unit is where its own steps bring it, and permuted schedules name every unit equally often. -/
theorem unitsAreIndependent : Obligations.UnitsAreIndependent := by
  refine ⟨getElem?_runSchedule, fun schedule schedule' units hperm => List.ext_getElem? fun k => ?_⟩
  rw [getElem?_runSchedule, getElem?_runSchedule, hperm.count_eq]

end Sys2Proof.Proofs
end

section
/-! PROOF. The family 70_reset_and_hazards.md. No command but `KGEN` sets `KVALID`, so a unit left without a key by `SETR`
stays without one (R258); and every key memory that meets the invariant is one the hard-reset event can leave, so `RST`
leaves a state of that event (R251). -/

namespace Sys2Proof.Proofs

open Sys2Proof.Machine

/-! ## A command that answers no code, and what a list of commands keeps -/

/-- Only a completion answers without a code. -/
theorem gated_completed {check : Option FaultCode} {r : Response} {effect s t : State}
    (h : gated check r effect s = .next t) (hresp : ∀ c, t.resp ≠ some (.err c)) :
    s.err = none ∧ check = none ∧ t = respond r effect := by
  rcases gated_cases check r effect s with ⟨c, -, hends⟩ | ⟨f, -, -, hends⟩ | ⟨hs, hcheck, hends⟩ <;>
    cases h.symm.trans hends
  · exact absurd (respond_resp ..) (hresp _)
  · exact absurd (raise_resp ..) (hresp _)
  · exact ⟨hs, hcheck, rfl⟩

/-- What each command of a list keeps, the list keeps. -/
theorem execList_keeps {P : State → Prop} {cs : List Instr}
    (hkeeps : ∀ i ∈ cs, ∀ s t, P s → exec i s = .next t → P t) {s t : State} (hs : P s) (h : execList cs s = .next t) :
    P t := by
  induction cs generalizing s with
  | nil => cases h; exact hs
  | cons i rest ih =>
    obtain ⟨hfirst, hrest⟩ := List.forall_mem_cons.1 hkeeps
    obtain ⟨u, hu⟩ := exec_next i s
    rw [execList_cons hu] at h
    exact ih hrest (hfirst s u hs hu) h

/-! ## Without a key (R258) -/

theorem effectOf_keeps_noKey {i : Instr} {s : State} (hi : i ≠ .kgen) (hkey : s.kvalid = false) :
    (effectOf i s).kvalid = false := by
  cases i with
  | kgen => exact absurd rfl hi
  | rst | setr => rfl
  | enc => rwa [effectOf, encrypt_frame]
  | _ => exact hkey

theorem exec_keeps_noKey {i : Instr} {s t : State} (hi : i ≠ .kgen) (hkey : s.kvalid = false) (h : exec i s = .next t) :
    t.kvalid = false := by
  obtain ⟨err, code, rfl⟩ | ⟨-, rfl⟩ := exec_stopsOrCompletes h
  · exact hkey
  · exact effectOf_keeps_noKey hi hkey

/-- A command that uses key material does not complete without a key, whatever code it then answers. -/
theorem answersCode_of_noKey {i : Instr} {s : State} (huses : usesKey i = true) (hkey : s.kvalid = false) :
    ∃ t c, exec i s = .next t ∧ t.resp = some (.err c) := by
  obtain ⟨t, h⟩ := exec_next i s
  obtain ⟨err, code, rfl⟩ | ⟨hcheck, -⟩ := exec_stopsOrCompletes h
  · exact ⟨_, code, h, rfl⟩
  · cases hkey.symm.trans (kvalid_of_checkOf hcheck huses)

/-- A `SETR` that answered `OK` left no fault, no key, and the count it was given. -/
theorem setr_completed {n : Nat} {s t : State} (h : exec (.setr n) s = .next t) (hok : t.resp = some .ok) :
    t.err = none ∧ t.kvalid = false ∧ t.rounds.toNat = n := by
  obtain ⟨hs, hcheck, -⟩ := gated_completed ((exec_setr n s).symm.trans h) (by simp [hok])
  obtain ⟨-, -, hlegal, -⟩ := setrSetsRoundCount
  obtain ⟨t', h', hcount, hframe⟩ := hlegal s n hs (by simpa [roundsFault] using hcheck)
  cases h.symm.trans h'
  rw [hframe]
  exact ⟨hs, rfl, hcount⟩

/-- Settles O39: in range only the key is left to check, and no command but `KGEN` brings one. -/
theorem setrInvalidatesKey : Obligations.SetrInvalidatesKey := by
  intro s t n h hok
  obtain ⟨herr, hkey, hcount⟩ := setr_completed h hok
  obtain ⟨-, -, -, -, hraises, -⟩ := orderOfChecks
  have hraise {i : Instr} (huses : usesKey i = true) (hop : operandCheck i t = none) : Raises .keyInvalid i t :=
    hraises i t herr hop huses hkey
  refine ⟨hkey, hraise rfl rfl, fun r i hr hi => ?_, fun cs u i hcs hu huses => ?_⟩
  · have hblock : ¬ r > t.rounds.toNat := by omega
    have hrange : ¬ (r > t.rounds.toNat ∨ i > 63) := by omega
    exact ⟨hraise rfl (if_neg hblock), hraise rfl (if_neg hblock), hraise rfl (if_neg hrange)⟩
  · have hstill : u.kvalid = false :=
      execList_keeps (P := fun s => s.kvalid = false) (fun x hx _ _ => exec_keeps_noKey (hcs x hx)) hkey hu
    exact answersCode_of_noKey huses hstill

/-! ## `RST` as a hard reset (R251) -/

/-- The words of a key memory below a bound, word 0 first: what the hard-reset event is given to leave that memory. -/
def wordsBelow (bound : Nat) (m : Memory) : List Word := (List.range bound).map (memRead m)

theorem wordsBelow_length (bound : Nat) (m : Memory) : (wordsBelow bound m).length = bound := by simp [wordsBelow]

/-- A canonical key memory below a bound is its words below that bound, written into an empty memory. -/
theorem memFill_wordsBelow {bound : Nat} {m : Memory} (hwf : Memory.wf m = true)
    (hbelow : Memory.below bound m = true) : memFill (wordsBelow bound m) [] = m := by
  refine mem_ext (memFill_wf _ rfl) hwf fun n => ?_
  rw [memRead_memFill, wordsBelow_length]
  split
  next hn => simp [wordsBelow, hn]
  next hn => exact (memRead_of_below hbelow (Nat.not_lt.1 hn)).symm

/-- Hard reset given the words of the unit's own key memory leaves that memory. -/
theorem hardReset_ownKey {s : State} (hs : UnitInv s) (lanes scratch : Lanes) :
    (hardReset lanes scratch (wordsBelow (keySize s) s.K) s).K = s.K := by
  rw [hardReset_K, List.take_of_length_le (wordsBelow_length ..).le, memFill_wordsBelow hs.key_canonical hs.key_inside]

/-- Settles O50: the event is given zero lanes, a zero scratch buffer and the key words the unit holds. -/
theorem rstIsOneHardReset : Obligations.RstIsOneHardReset := by
  intro s hs
  refine ⟨wordsBelow (keySize s) s.K, ?_⟩
  rw [exec_rst, hardReset, ← hardReset_K zeroLanes zeroLanes, hardReset_ownKey hs]
  rfl

end Sys2Proof.Proofs
end

section
/-! PROOF. What holds of the unit as a whole: its steps, its encoding, the invariant every step keeps, and a system of
units. A command is followed by its check, its answer and its effect; a step by the four things it can do. -/

namespace Sys2Proof.Proofs

open Sys2Proof.Machine Sys2Proof.Laws

/-! ## Steps (60_exceptions.md R227, R243; 70_reset_and_hazards.md R262) -/

/-- Settles O4: every input has its arm, and no arm stops. -/
theorem everyStepAnswersNext : Obligations.EveryStepAnswersNext := step_next

/-- Settles O5, by the arms of `step` for a command word and for nothing presented. -/
theorem stepRunsDecodedCommand : Obligations.StepRunsDecodedCommand :=
  ⟨fun _ _ _ _ _ hp hw => step_command hp hw, fun _ hp => step_idle hp⟩

/-! ## Decoding and encoding (30_encoding.md R70 to R76) -/

theorem matchesRow_encode (i : Instr) : matchesRow (rowOf i) (encode i) = true := by
  cases i with
  | wrs | rds | setr | setm | rdc | sbx | ak | rnd => exact rowMatch_formatA _ _ _ _ rfl
  | rdk | mir => exact rowMatch_formatAB _ _ _ _ _ rfl
  | nop | rst | trn | sbl | pl | enc | kgen => rfl

/-- The operand fields of a well-formed command's word hold its operands. -/
theorem withOperands_encode {i : Instr} (h : wellFormed i = true) : withOperands (encode i) i = i := by
  cases i with
  | wrs | rds | setr | setm | rdc | sbx | ak | rnd =>
    simp only [wellFormed, fitsField, decide_eq_true_eq] at h
    rw [encode, withOperands, aField_packCmd, Nat.mod_eq_of_lt h]
  | rdk | mir =>
    simp only [wellFormed, fitsField, Bool.and_eq_true, decide_eq_true_eq] at h
    rw [encode, withOperands, aField_packCmd, bField_packCmd, Nat.mod_eq_of_lt h.1, Nat.mod_eq_of_lt h.2]
  | nop | rst | trn | sbl | pl | enc | kgen => rfl

/-- Settles O8: the word lies in the command's row, and its operand fields hold the operands. -/
theorem decodeOfEncode : Obligations.DecodeOfEncode := by
  intro i h
  rw [decode_of_matchesRow (matchesRow_encode i), withOperands_encode h]

theorem wellFormed_withOperands (w : Cmd) (i : Instr) : wellFormed (withOperands w i) = true := by
  cases i with
  | wrs | rds | setr | setm | rdc | sbx | ak | rnd => exact decide_eq_true (aField_lt w)
  | rdk | mir => exact Bool.and_eq_true_iff.2 ⟨decide_eq_true (aField_lt w), decide_eq_true (bField_lt w)⟩
  | nop | rst | trn | sbl | pl | enc | kgen => rfl

/-- A word that matches a command's row has no bits but those of `op` and of the operands. -/
theorem encode_withOperands {i : Instr} {w : Cmd} (h : matchesRow (rowOf i) w = true) :
    encode (withOperands w i) = w := by
  cases i with
  | nop | rst | trn | sbl | pl | enc | kgen =>
    obtain ⟨hop, ha, hb, hc⟩ := (matchesRow_formatZ ⟨rfl, rfl, rfl⟩).1 h
    have hw := packCmd_fields w hc
    rw [hop, ha, hb] at hw
    exact hw
  | wrs | rds | setr | setm | rdc | sbx | ak | rnd =>
    obtain ⟨hop, hb, hc⟩ := (matchesRow_formatA ⟨rfl, rfl, rfl⟩).1 h
    have hw := packCmd_fields w hc
    rw [hop, hb] at hw
    exact hw
  | rdk | mir =>
    obtain ⟨hop, hc⟩ := (matchesRow_formatAB ⟨rfl, rfl, rfl⟩).1 h
    have hw := packCmd_fields w hc
    rw [hop] at hw
    exact hw

/-- Settles O9: a legal word matches its command's row, so its fields are `op`, the operands and zeros. -/
theorem encodeOfDecode : Obligations.EncodeOfDecode := by
  intro w i h
  have hrow : matchesRow (rowOf i) w = true := matchesRow_of_decode h
  have hi : withOperands w i = i := Except.ok.inj ((decode_of_matchesRow hrow).symm.trans h)
  rw [← hi]
  exact ⟨wellFormed_withOperands w i, encode_withOperands hrow⟩

/-- Settles O10: twelve closed decodings. -/
theorem specWordsDecode : Obligations.SpecWordsDecode := by
  unfold Obligations.SpecWordsDecode
  decide

/-! ## Rows and lanes under `TRN` (00_scope.md R13, 40_bit_transform.md R106) -/

theorem row_transpose (M : Lanes) {j : Nat} (hj : j < 64) : row (transpose M) j = lane M j := by
  rw [← lane_transpose _ hj, transpose_involutive]

theorem lane_transpose_mirrored (M : Lanes) {j : Nat} (hj : j < 64) :
    lane (transpose (lanesOf fun i => mirror (lane M i))) j = lane (transpose M) (63 - j) :=
  word_ext fun i hi => by
    rw [getLsbD_lane_transpose _ hi hj, lane_lanesOf, if_pos hi, getLsbD_mirror _ hj,
      getLsbD_lane_transpose M hi (by omega)]

/-- Settles O23: the row words are the lanes of the transpose, and transposing twice changes nothing. -/
theorem trnExchangesRowsAndLanes : Obligations.TrnExchangesRowsAndLanes :=
  ⟨fun s hs => ⟨_, exec_trn_legal hs, fun _ hj => ⟨row_transpose s.S hj, lane_transpose s.S hj⟩⟩,
    fun M _ hj => lane_transpose_mirrored M hj⟩

/-! ## Hard reset (10_state.md R36 to R39, 70_reset_and_hazards.md R250) -/

theorem controlRegs_of_cleared {t : State} (hrounds : t.rounds = 0) (hmode : t.keymode = .independent)
    (hkey : t.kvalid = false) (herr : t.err = none) :
    controlReg 0 t = 0 ∧ controlReg 1 t = 0 ∧ controlReg 2 t = 0 := by
  refine ⟨?_, ?_, ?_⟩
  · rw [controlReg, roundsReg, hrounds]; rfl
  · rw [controlReg, keymodeReg, hmode]; rfl
  · rw [controlReg, statusReg, hkey, herr]; rfl

/-- Inside the size of the key memory the event leaves the words it was given, and 0 where it was given none. -/
theorem memRead_hardReset {s : State} {n : Nat} (hn : n < keySize s) (lanes scratch : Lanes) (ws : List Word) :
    memRead (hardReset lanes scratch ws s).K n = ws.getD n 0 := by
  rw [hardReset_K, memRead_memFill, List.length_take]
  by_cases hlen : n < ws.length
  · rw [if_pos (lt_min hn hlen), List.getD_eq_getElem?_getD, List.getElem?_take_of_lt hn, List.getD_eq_getElem?_getD]
  · rw [if_neg (by omega), List.getD_eq_default _ _ (Nat.not_lt.1 hlen), memRead]

/-- Settles O1: the event clears the control fields, and holds what it was given elsewhere. -/
theorem hardResetClearsControlFields : Obligations.HardResetClearsControlFields := by
  refine ⟨fun s lanes scratch ws rest hp => ?_, fun s lanes scratch key rest => ?_, ?_⟩
  · obtain ⟨hcount, hmode, hstatus⟩ :=
      controlRegs_of_cleared (t := hardReset lanes scratch ws (takeInput rest s)) rfl rfl rfl rfl
    exact ⟨_, step_hardReset hp, rfl, rfl, rfl, rfl, hcount, hmode, hstatus, rfl, rfl⟩
  · refine ⟨(List.range (keySize s)).map key, _, step_hardReset rfl, rfl, rfl, fun n hn => ?_⟩
    exact (memRead_hardReset hn lanes scratch _).trans (by simp [hn])
  · obtain ⟨hcount, hmode, hstatus⟩ := controlRegs_of_cleared (t := State.reset) rfl rfl rfl rfl
    exact ⟨rfl, rfl, rfl, rfl, hcount, hmode, hstatus, rfl⟩

/-! ## The invariant of the unit (10_state.md R25, R29; 60_exceptions.md R228) -/

theorem unitInv_reset : UnitInv State.reset := ⟨Nat.zero_le _, rfl, rfl, nofun⟩

theorem unitInv_hardReset (lanes scratch : Lanes) (ws : List Word) (s : State) :
    UnitInv (hardReset lanes scratch ws s) where
  rounds_legal := Nat.zero_le _
  key_canonical := memFill_wf _ rfl
  key_inside := memFill_below _ (List.length_take_le _ _) rfl
  resp_latched := nofun

/-- Settles O2: the count is 0, the key memory is filled from an empty one, and nothing has been answered. -/
theorem resetMeetsInvariant : Obligations.ResetMeetsInvariant :=
  ⟨unitInv_reset, fun s lanes scratch ws => unitInv_hardReset lanes scratch ws s⟩

theorem unitInv_present {s : State} (hs : UnitInv s) (d : Word) (rest : List Input) : UnitInv (present d rest s) :=
  ⟨hs.rounds_legal, hs.key_canonical, hs.key_inside, hs.resp_latched⟩

/-- A gated command that answers a code has that code latched. -/
theorem gated_latches {check : Option FaultCode} {r : Response} {effect s t : State} (hr : ∀ c, r ≠ .err c)
    (h : gated check r effect s = .next t) {c : FaultCode} (hresp : t.resp = some (.err c)) : t.err = some c := by
  rcases gated_cases check r effect s with ⟨f, hf, hends⟩ | ⟨f, -, -, hends⟩ | ⟨-, -, hends⟩ <;>
    cases h.symm.trans hends
  · cases hresp
    exact hf
  · cases hresp
    rfl
  · exact absurd (Option.some.inj hresp) (hr c)

theorem answerOf_ne_err (i : Instr) (s : State) (c : FaultCode) : answerOf i s ≠ .err c := by
  rcases answerOf_ok_or_data i s with h | ⟨v, h⟩ <;> rw [h] <;> nofun

/-- 60_exceptions.md R228: whichever command it is, a code it answers is the latched one. -/
theorem exec_latches {i : Instr} {s t : State} (h : exec i s = .next t) {c : FaultCode}
    (hresp : t.resp = some (.err c)) : t.err = some c := by
  rcases exec_gated_or_served i with rfl | ⟨n, rfl⟩ | hgated
  · cases h
    cases hresp
  · rcases Nat.lt_or_ge 3 n with hn | hn
    · cases h.symm.trans (exec_rdc_out n s hn)
      cases hresp
      rfl
    · cases h.symm.trans (exec_rdc_in n s hn)
      cases hresp
  · exact gated_latches (answerOf_ne_err i s) ((hgated s).symm.trans h) hresp

/-- 10_state.md R29: `SETR` is the one command that writes a count of its own, and it has checked it. -/
theorem effectOf_rounds_legal {i : Instr} {s : State} (hs : UnitInv s) (hcheck : checkOf i s = none) :
    (effectOf i s).rounds.toNat ≤ s.maxRounds.toNat := by
  cases i with
  | rst => exact Nat.zero_le _
  | setr n =>
    have hn : n ≤ s.maxRounds.toNat := by simpa [checkOf, roundsFault] using hcheck
    exact (BitVec.toNat_ofNat n 8).le.trans ((Nat.mod_le _ _).trans hn)
  | enc => rw [effectOf, encrypt_frame]; exact hs.rounds_legal
  | kgen => rw [effectOf, generateKeys_spec]; exact hs.rounds_legal
  | _ => exact hs.rounds_legal

/-- 43_key_strategies.md R175: `KGEN` writes the blocks `0 .. ROUNDS`, which are inside the key memory. -/
theorem keyAfter_legal {s : State} (hs : UnitInv s) (i : Instr) :
    Memory.wf (keyAfter i s s.K) = true ∧ Memory.below (keySize s) (keyAfter i s s.K) = true := by
  by_cases hi : i = .kgen
  · have hsize : (keyWords s).length ≤ keySize s := by
      have hrounds := hs.rounds_legal
      rw [keyWords_length, keySize]
      omega
    rw [hi, keyAfter]
    exact ⟨memFill_wf _ hs.key_canonical, memFill_below _ hsize hs.key_inside⟩
  · rw [keyAfter_of_ne_kgen hi]
    exact ⟨hs.key_canonical, hs.key_inside⟩

theorem exec_keeps_unitInv {i : Instr} {s t : State} (hs : UnitInv s) (h : exec i s = .next t) : UnitInv t := by
  have hlatched : ∀ c, t.resp = some (.err c) → t.err = some c := fun _ => exec_latches h
  obtain ⟨hmax, -⟩ := exec_fixed h
  obtain ⟨err, code, rfl⟩ | ⟨hcheck, rfl⟩ := exec_stopsOrCompletes h
  · exact ⟨hs.rounds_legal, hs.key_canonical, hs.key_inside, hlatched⟩
  · obtain ⟨hwf, hbelow⟩ := keyAfter_legal hs i
    refine ⟨?_, ?_, ?_, hlatched⟩
    · rw [hmax]
      exact effectOf_rounds_legal hs hcheck
    · rwa [respond_K, effectOf_K]
    · rwa [keySize, hmax, respond_K, effectOf_K]

theorem illegalCommand_keeps_unitInv {s t : State} (hs : UnitInv s) (h : illegalCommand s = .next t) : UnitInv t := by
  have hlatched : ∀ c, t.resp = some (.err c) → t.err = some c := fun _ => gated_latches (r := .ok) nofun h
  obtain ⟨err, resp, rfl, -⟩ := illegalCommand_next h
  exact ⟨hs.rounds_legal, hs.key_canonical, hs.key_inside, hlatched⟩

theorem step_keeps_unitInv {s t : State} (hs : UnitInv s) (h : step s = .next t) : UnitInv t := by
  rcases step_cases h with ⟨-, rfl⟩ | ⟨lanes, scratch, ws, rest, -, rfl⟩ | ⟨w, d, rest, e, -, -, hi⟩ |
    ⟨w, d, rest, i, -, -, hi⟩
  · exact hs
  · exact unitInv_hardReset lanes scratch ws _
  · exact illegalCommand_keeps_unitInv (unitInv_present hs d rest) hi
  · exact exec_keeps_unitInv (unitInv_present hs d rest) hi

/-- Settles O3, by the four things a step can do. -/
theorem stepKeepsInvariant : Obligations.StepKeepsInvariant := fun _ _ hs h => step_keeps_unitInv hs h

/-! ## The writers of the control fields (10_state.md section 4) -/

/-- Of a reset and the commands taken, only these may have changed `ROUNDS`, `KEYMODE` and `KVALID`. -/
def ControlWriters (reset : Prop) (took : Instr → Prop) (s t : State) : Prop :=
  (t.rounds ≠ s.rounds → reset ∨ ∃ n, took (.setr n)) ∧
  (t.keymode ≠ s.keymode → reset ∨ ∃ m, took (.setm m)) ∧
  (s.kvalid = false → t.kvalid = true → took .kgen) ∧
  (s.kvalid = true → t.kvalid = false → reset ∨ ∃ n, took (.setr n))

section ControlWriters

variable {reset : Prop} {took : Instr → Prop} {s t : State}

theorem controlWriters_of_keptKey (hrounds : t.rounds = s.rounds)
    (hmode : t.keymode ≠ s.keymode → reset ∨ ∃ m, took (.setm m)) (hkey : t.kvalid = s.kvalid) :
    ControlWriters reset took s t := by
  refine ⟨fun h => absurd hrounds h, hmode, fun hno hyes => ?_, fun hyes hno => ?_⟩
  · cases hno.symm.trans (hkey.symm.trans hyes)
  · cases hno.symm.trans (hkey.trans hyes)

theorem controlWriters_of_kept (hrounds : t.rounds = s.rounds) (hmode : t.keymode = s.keymode)
    (hkey : t.kvalid = s.kvalid) : ControlWriters reset took s t :=
  controlWriters_of_keptKey hrounds (fun h => absurd hmode h) hkey

theorem controlWriters_of_reset (hreset : reset) (hkey : t.kvalid = false) : ControlWriters reset took s t :=
  ⟨fun _ => .inl hreset, fun _ => .inl hreset, fun _ hyes => absurd (hkey.symm.trans hyes) nofun,
    fun _ _ => .inl hreset⟩

theorem ControlWriters.imp {reset' : Prop} {took' : Instr → Prop} (h : ControlWriters reset took s t)
    (hreset : reset → reset') (htook : ∀ i, took i → took' i) : ControlWriters reset' took' s t := by
  obtain ⟨hrounds, hmode, hset, hclear⟩ := h
  have hcommand {mk : Nat → Instr} (hw : reset ∨ ∃ n, took (mk n)) : reset' ∨ ∃ n, took' (mk n) :=
    hw.imp hreset (Exists.imp fun n => htook (mk n))
  exact ⟨fun hne => hcommand (hrounds hne), fun hne => hcommand (hmode hne), fun hno hyes => htook _ (hset hno hyes),
    fun hyes hno => hcommand (hclear hyes hno)⟩

end ControlWriters

theorem effectOf_controlWriters (i : Instr) (s : State) : ControlWriters (i = .rst) (i = ·) s (effectOf i s) := by
  cases i with
  | rst => exact controlWriters_of_reset rfl rfl
  | setr n => exact ⟨fun _ => .inr ⟨n, rfl⟩, fun h => absurd rfl h, nofun, fun _ _ => .inr ⟨n, rfl⟩⟩
  | setm m => exact controlWriters_of_keptKey rfl (fun _ => .inr ⟨m, rfl⟩) rfl
  | kgen =>
    rw [effectOf, generateKeys_spec]
    exact ⟨fun h => absurd rfl h, fun h => absurd rfl h, fun _ _ => rfl, nofun⟩
  | enc =>
    rw [effectOf, encrypt_frame]
    exact controlWriters_of_kept rfl rfl rfl
  | _ => exact controlWriters_of_kept rfl rfl rfl

theorem exec_controlWriters {i : Instr} {s t : State} (h : exec i s = .next t) :
    ControlWriters (i = .rst) (i = ·) s t := by
  obtain ⟨err, code, rfl⟩ | ⟨-, rfl⟩ := exec_stopsOrCompletes h
  · exact controlWriters_of_kept rfl rfl rfl
  · exact effectOf_controlWriters i s

/-- Settles O45: a step changes what its command does, and nothing when it takes none. -/
theorem controlFieldWriters : Obligations.ControlFieldWriters := by
  intro s t h
  change ControlWriters (takesReset s) (takes s) s t
  rcases step_cases h with ⟨-, rfl⟩ | ⟨lanes, scratch, ws, rest, hp, rfl⟩ | ⟨w, d, rest, e, -, -, hi⟩ |
    ⟨w, d, rest, i, hp, hw, hi⟩
  · exact controlWriters_of_kept rfl rfl rfl
  · exact controlWriters_of_reset (.inr ⟨lanes, scratch, ws, rest, hp⟩) rfl
  · obtain ⟨err, resp, rfl, -⟩ := illegalCommand_next hi
    exact controlWriters_of_kept rfl rfl rfl
  · have htakes : takes s i := ⟨w, d, rest, hp, hw⟩
    exact (exec_controlWriters hi).imp (fun hrst => .inl (hrst ▸ htakes)) fun _ htook => htook ▸ htakes

/-! ## A run that hides no fault (60_exceptions.md R230, R231) -/

theorem effectOf_pending (i : Instr) (s : State) : (effectOf i s).pending = s.pending := by
  cases i with
  | enc => rw [effectOf, encrypt_frame]
  | kgen => rw [effectOf, generateKeys_spec]
  | _ => rfl

/-- No command presents anything or takes an input that stands behind it. -/
theorem exec_pending {i : Instr} {s t : State} (h : exec i s = .next t) : t.pending = s.pending := by
  obtain ⟨err, code, rfl⟩ | ⟨-, rfl⟩ := exec_stopsOrCompletes h
  · rfl
  · exact effectOf_pending i s

theorem step_pending {s t : State} (h : step s = .next t) : t.pending = s.pending.tail := by
  rcases step_cases h with ⟨hp, rfl⟩ | ⟨lanes, scratch, ws, rest, hp, rfl⟩ | ⟨w, d, rest, e, hp, -, hi⟩ |
    ⟨w, d, rest, i, hp, -, hi⟩
  · rw [hp, List.tail_nil]
  · rw [hp, List.tail_cons, hardReset_pending, takeInput_pending]
  · obtain ⟨err, resp, rfl, -⟩ := illegalCommand_next hi
    rw [hp, List.tail_cons, present_pending]
  · rw [hp, List.tail_cons, exec_pending hi, present_pending]

/-- A step whose input is no reset takes no reset. -/
theorem not_takesReset {s : State} {n : Nat} (hinputs : ∀ x ∈ s.pending.take (n + 1), resets x = false) :
    ¬ takesReset s := by
  rintro (⟨w, d, rest, hp, hw⟩ | ⟨lanes, scratch, ws, rest, hp⟩) <;>
    rw [hp, List.take_succ_cons, List.forall_mem_cons] at hinputs <;> obtain ⟨hfirst, -⟩ := hinputs
  · simp [resets, hw, decoded] at hfirst
  · cases hfirst

theorem not_faulted_of_safeRun {n : Nat} {s : State} (h : safeRun n s) : ¬ faulted s := by
  cases n with
  | zero => exact h
  | succ n =>
    obtain ⟨hs, -⟩ := h
    exact hs

/-- Settles O43: a step without a reset keeps a latched code, so a state a safe run goes on from is not faulted. -/
theorem failureIsNeverHidden : Obligations.FailureIsNeverHidden := by
  intro n
  induction n with
  | zero => exact fun s _ hlast => hlast
  | succ n ih =>
    intro s hinputs hlast
    obtain ⟨t, ht⟩ := step_next s
    rw [stepsOf, stepOf_of_step ht] at hlast
    rw [safeRun, stepOf_of_step ht]
    have hrest : ∀ x ∈ t.pending.take n, resets x = false := fun x hx => by
      rw [step_pending ht] at hx
      exact hinputs x (List.mem_of_mem_tail (by rwa [List.tail_take_eq_take_tail]))
    have hsafe : safeRun n t := ih t hrest hlast
    refine ⟨fun hfault => ?_, hsafe⟩
    obtain ⟨c, hc⟩ := Option.ne_none_iff_exists'.1 hfault
    have hkept : t.err = some c :=
      (firstFaultStaysLatched s t c hc ht).resolve_right fun ⟨_, hreset⟩ => not_takesReset hinputs hreset
    exact not_faulted_of_safeRun hsafe (by simp [faulted, hkept])

/-! ## Systems of units (60_exceptions.md R234, R235) -/

theorem unitsFrom_eq_map (maxRounds : BitVec 8) (source : Nat) (us : List UnitStart) :
    unitsFrom maxRounds source us = (us.zipIdx source).map fun p => unitAtReset maxRounds p.2 p.1 := by
  induction us generalizing source with
  | nil => rfl
  | cons u us ih => rw [unitsFrom, ih, List.zipIdx_cons, List.map_cons]

theorem systemInv_unitsFrom (maxRounds : BitVec 8) (source : Nat) {us : List UnitStart} (hus : us ≠ []) :
    SystemInv (unitsFrom maxRounds source us) := by
  rw [unitsFrom_eq_map]
  refine ⟨by simpa using hus, ?_, ?_, ?_⟩
  · simp only [List.forall_mem_map]
    exact fun _ _ _ _ => rfl
  · have hsources : (us.zipIdx source).map (State.source ∘ fun p => unitAtReset maxRounds p.2 p.1) =
        (us.zipIdx source).map Prod.snd := rfl
    rw [List.map_map, hsources, List.zipIdx_map_snd]
    exact List.nodup_range'
  · simp only [List.forall_mem_map]
    exact fun _ _ => unitInv_hardReset ..

/-- Settles O52: unit `k` is its start after hard reset, with source `k`. -/
theorem systemStartsFromReset : Obligations.SystemStartsFromReset := by
  intro maxRounds first others
  refine ⟨systemInv_unitsFrom maxRounds 0 (List.cons_ne_nil _ _), ?_, fun k u hu => ?_⟩
  · rw [systemAtReset, unitsFrom_eq_map, List.length_map, List.length_zipIdx, List.length_cons]
  · refine ⟨unitAtReset maxRounds k u, ?_, rfl, rfl, rfl, rfl, rfl, rfl, rfl,
      fun n hn => memRead_hardReset hn .., rfl, rfl⟩
    rw [systemAtReset, unitsFrom_eq_map, List.getElem?_map, List.getElem?_zipIdx, hu]
    simp

/-- What no step of a unit changes is the same throughout the system after a unit's step. -/
theorem map_stepUnit {α : Type} {f : State → α} (hf : ∀ s, f (stepOf s) = f s) (k : Nat) (y : System) :
    (stepUnit k y).map f = y.map f := by
  have hcomp : f ∘ stepOf = f := funext hf
  refine List.ext_getElem? fun j => ?_
  rw [List.getElem?_map, List.getElem?_map, getElem?_stepUnit]
  split
  · rw [Option.map_map, hcomp]
  · rfl

theorem forall_mem_stepUnit {P : State → Prop} (hP : ∀ s, P s → P (stepOf s)) (k : Nat) {y : System}
    (hy : ∀ s ∈ y, P s) : ∀ s ∈ stepUnit k y, P s := by
  intro s hs
  obtain ⟨j, hj⟩ := List.mem_iff_getElem?.1 hs
  rw [getElem?_stepUnit] at hj
  split at hj
  · obtain ⟨u, hu, rfl⟩ := Option.map_eq_some_iff.1 hj
    exact hP u (hy u (List.mem_of_getElem? hu))
  · exact hy s (List.mem_of_getElem? hj)

theorem stepOf_fixed (s : State) : (stepOf s).maxRounds = s.maxRounds ∧ (stepOf s).source = s.source := by
  obtain ⟨t, ht⟩ := step_next s
  rw [stepOf_of_step ht]
  exact step_fixed ht

theorem stepOf_keeps_unitInv (s : State) (hs : UnitInv s) : UnitInv (stepOf s) := by
  obtain ⟨t, ht⟩ := step_next s
  rw [stepOf_of_step ht]
  exact step_keeps_unitInv hs ht

/-- All alike, said of the list of the units' parameters. -/
theorem alike_iff {y : System} :
    (∀ s ∈ y, ∀ s' ∈ y, s.maxRounds = s'.maxRounds) ↔
      ∀ m ∈ y.map State.maxRounds, ∀ m' ∈ y.map State.maxRounds, m = m' := by
  simp only [List.forall_mem_map]

/-- Settles O53: a step leaves the list of parameters and the list of sources as they are, and the unit's invariant. -/
theorem stepKeepsSystemInvariant : Obligations.StepKeepsSystemInvariant := by
  intro k y hy
  have hparameters := map_stepUnit (fun s => (stepOf_fixed s).1) k y
  have hsources := map_stepUnit (fun s => (stepOf_fixed s).2) k y
  refine ⟨?_, ?_, ?_, forall_mem_stepUnit stepOf_keeps_unitInv k hy.units⟩
  · rw [Ne, ← List.map_eq_nil_iff (f := State.maxRounds), hparameters, List.map_eq_nil_iff]
    exact hy.at_least_one
  · rw [alike_iff, hparameters, ← alike_iff]
    exact hy.alike
  · rw [hsources]
    exact hy.own_source

end Sys2Proof.Proofs
end
